-- ==== Sys2Proof/Word.lean ====
section
/-! DEFINITION. The words of the block: bytes of the streams, 32-bit register values, and the 6-bit
transaction header (00_scope.md R12, R13; 30_encoding.md R60). -/

namespace Sys2Proof

/-- A byte of a stream (00_scope.md R12). -/
abbrev Byte := BitVec 8

/-- A 32-bit register value, command word or sample (00_scope.md R10, R11). -/
abbrev Word := BitVec 32

/-- The header of a host bus transaction: bit 5 is W, bits 4..0 are OFF (30_encoding.md R60). -/
abbrev Header := BitVec 6

end Sys2Proof
end

