-- ==== Sys2Proof/Config.lean ====
section
/-! DEFINITION. The build parameters (00_scope.md R7, R8, R9) and the block's one free value
(`draw32`, 00_scope.md R17). They are fixed for a build and are no part of the state (10_state.md R20). -/

namespace Sys2Proof

/-- The byte order of an output word (00_scope.md R7, R16). -/
inductive ByteOrder where
  | le
  | be
  deriving DecidableEq, Repr, Inhabited

/-- What a decode yields when its read is short (00_scope.md R8). -/
inductive FillMode where
  | zero
  | any
  deriving DecidableEq, Repr

/-- The build parameters that a rule's result depends on. The operations of the datapath take a
`Build` as an argument, so that they are stated once for every build. -/
structure Build where
  nativeOrder : ByteOrder
  fillMode : FillMode
  deriving DecidableEq, Repr

/-- NATIVE_ORDER, which the spec leaves OPEN (00_scope.md R7, 92_eei_decisions.md D5): nothing here
can say which of the two it is. DESIGN CHOICE (log 1), safe. -/
opaque Config.nativeOrder : ByteOrder

/-- FILL_MODE: "This hardware takes ZERO" (00_scope.md R8, 92_eei_decisions.md D6; log 2). -/
def Config.fillMode : FillMode := .zero

/-- This hardware's build. -/
def Config.build : Build := ⟨Config.nativeOrder, Config.fillMode⟩

/-- `draw32()` (00_scope.md R17): the `n`-th unconstrained 32-bit draw. Only a build with
FILL_MODE = ANY takes one (log 2), safe. -/
opaque Config.draw32 : Nat → Word

/-- FRAMES_W, the width of the FRAMES counter (00_scope.md R9). -/
abbrev Config.framesW : Nat := 32

end Sys2Proof
end

