-- ==== Sys2Proof/Syntax.lean ====
section
/-! DEFINITION. The instructions of the block: one constructor per row of spec/opcode_table.json, the
two formats they are spelled in (CMD and BUSHDR), and a host access as it reaches the register port
(30_encoding.md R60, R62, R77). -/

namespace Sys2Proof

/-- The host-visible operations (00_scope.md R2, 30_encoding.md R68, R77). The first seven are command
words, the data word of a WR CMD transaction; the others are bus transactions. -/
inductive Instr where
  /-- CMD 0x00000000: no operation (42_control.md R120). -/
  | nop
  /-- CMD 0x00000001: decode one word of the left channel (40_word_decoder.md R88). -/
  | decodeL
  /-- CMD 0x00000002: decode one word of the right channel (40_word_decoder.md R89). -/
  | decodeR
  /-- CMD 0x00000003: one interleaver iteration (41_interleaver.md R103). -/
  | step
  /-- CMD 0x00000004: interleave to termination (41_interleaver.md R104). -/
  | run
  /-- CMD 0x00000005: clear status, counter and samples (42_control.md R121). -/
  | clear
  /-- Every other CMD word: reserved, rejected with ERR = 1 (30_encoding.md R70). -/
  | reservedCmd (word : Word)
  /-- Header 0x20: write a command word to CMD (30_encoding.md R69). -/
  | wrCmd (data : Word)
  /-- Header 0x24: write CFG (42_control.md R122). -/
  | wrCfg (data : Word)
  /-- Headers 0x28 and 0x2C: a write to STATUS (`o` = 0) or FRAMES (`o` = 1), ignored (30_encoding.md R61). -/
  | wrIgnored08_0C (o : BitVec 1) (data : Word)
  /-- Headers 0x30 to 0x3C: a write to SAMPLE_L, SAMPLE_R, 0x18 or 0x1C (`oo` = 0 to 3), ignored
  (30_encoding.md R61). -/
  | wrIgnored10_1C (oo : BitVec 2) (data : Word)
  /-- Header 0x00: read CMD, which returns 0 (30_encoding.md R61). -/
  | rdCmd
  /-- Header 0x04: read CFG (42_control.md R123). -/
  | rdCfg
  /-- Header 0x08: read STATUS (42_control.md R124). -/
  | rdStatus
  /-- Header 0x0C: read FRAMES (42_control.md R125). -/
  | rdFrames
  /-- Header 0x10: read SAMPLE_L (42_control.md R126). -/
  | rdSampleL
  /-- Header 0x14: read SAMPLE_R (42_control.md R126). -/
  | rdSampleR
  /-- Headers 0x18 and 0x1C: read a reserved offset (`o` = 0 or 1), which returns 0 (30_encoding.md R61). -/
  | rdReserved (o : BitVec 1)
  deriving DecidableEq, Repr

/-- An instruction's words: a CMD word, or a transaction header with its data word (the two formats of
spec/opcode_table.json). A read carries no data word: there the field is 0 in the canonical form. -/
inductive Encoded where
  | cmd (word : Word)
  | bus (header : Header) (data : Word)
  deriving DecidableEq, Repr

/-- How many bits a host access moves (20_memory.md R47, R48). -/
inductive AccessWidth where
  | byte
  | half
  | word
  deriving DecidableEq, Repr

/-- One access of the host to the register port: its width, its header and, for a write, its data word
(30_encoding.md R60). On a read nothing drives `data`, and no rule looks at it. -/
structure Transaction where
  width : AccessWidth
  header : Header
  data : Word
  deriving DecidableEq, Repr

/-- Why an access spells no transaction. -/
inductive Reject where
  /-- A byte or halfword access: "A model refuses it" (20_memory.md R47). -/
  | subWordAccess
  /-- OFF[1:0] ≠ 00: "spells no transaction; a model refuses it" (30_encoding.md R60). -/
  | misalignedOffset
  deriving DecidableEq, Repr

end Sys2Proof
end

