-- ==== Sys2Proof/WellFormed.lean ====
section
/-! DEFINITION. Well-formed instructions: those that some words of the spec's encoding stand for. -/

namespace Sys2Proof

/-- The reserved CMD words: RSV ≠ 0, or OP in 0x6 to 0xF (30_encoding.md R70). -/
def reservedWord (word : Word) : Bool :=
  word.extractLsb' 4 28 != 0#28 || 6#4 ≤ word.extractLsb' 0 4

/-- Every operand of every constructor is in range by its type, but for the word of `reservedCmd`, which
must not be the word of a command of 30_encoding.md R68. -/
def Instr.wellFormed : Instr → Bool
  | .nop => true
  | .decodeL => true
  | .decodeR => true
  | .step => true
  | .run => true
  | .clear => true
  | .reservedCmd word => reservedWord word
  | .wrCmd _ => true
  | .wrCfg _ => true
  | .wrIgnored08_0C _ _ => true
  | .wrIgnored10_1C _ _ => true
  | .rdCmd => true
  | .rdCfg => true
  | .rdStatus => true
  | .rdFrames => true
  | .rdSampleL => true
  | .rdSampleR => true
  | .rdReserved _ => true

end Sys2Proof
end

