-- ==== Sys2Proof/Decode.lean ====
section
/-! DEFINITION. The decoder, total on every word and every header, and after it the encoder
(30_encoding.md R60, R62, R68 to R70, R77; spec/opcode_table.json). -/

namespace Sys2Proof

/-! ### The decoder -/

/-- The OP field of a CMD word (30_encoding.md R62). -/
def cmdOp (word : Word) : BitVec 4 := word.extractLsb' 0 4

/-- The RSV field of a CMD word (30_encoding.md R62). -/
def cmdRsv (word : Word) : BitVec 28 := word.extractLsb' 4 28

/-- The command a CMD word stands for: total over all 2^32 words (30_encoding.md R68, R69, R70). -/
def decodeCommand (word : Word) : Instr :=
  if cmdRsv word ≠ 0#28 then .reservedCmd word
  else match (cmdOp word).toNat with
    | 0x0 => .nop
    | 0x1 => .decodeL
    | 0x2 => .decodeR
    | 0x3 => .step
    | 0x4 => .run
    | 0x5 => .clear
    | _ => .reservedCmd word

/-- The operation a 32-bit transaction stands for, by its header (30_encoding.md R77). The last arm is
reached exactly by the headers with OFF[1:0] ≠ 00. -/
def decodeHeader (header : Header) (data : Word) : Except Reject Instr :=
  match header.toNat with
  | 0x20 => .ok (.wrCmd data)
  | 0x24 => .ok (.wrCfg data)
  | 0x28 => .ok (.wrIgnored08_0C 0#1 data)
  | 0x2C => .ok (.wrIgnored08_0C 1#1 data)
  | 0x30 => .ok (.wrIgnored10_1C 0#2 data)
  | 0x34 => .ok (.wrIgnored10_1C 1#2 data)
  | 0x38 => .ok (.wrIgnored10_1C 2#2 data)
  | 0x3C => .ok (.wrIgnored10_1C 3#2 data)
  | 0x00 => .ok .rdCmd
  | 0x04 => .ok .rdCfg
  | 0x08 => .ok .rdStatus
  | 0x0C => .ok .rdFrames
  | 0x10 => .ok .rdSampleL
  | 0x14 => .ok .rdSampleR
  | 0x18 => .ok (.rdReserved 0#1)
  | 0x1C => .ok (.rdReserved 1#1)
  | _ => .error .misalignedOffset

/-- The operation a host access stands for. An access of another width than 32 bits is no transaction,
whatever its offset (20_memory.md R47). -/
def decodeTransaction (t : Transaction) : Except Reject Instr :=
  match t.width with
  | .byte => .error .subWordAccess
  | .half => .error .subWordAccess
  | .word => decodeHeader t.header t.data

/-- The instruction that encoded words stand for. -/
def decode : Encoded → Except Reject Instr
  | .cmd word => .ok (decodeCommand word)
  | .bus header data => decodeHeader header data

/-! ### The encoder -/

/-- The header of a write (W = 1) or a read (W = 0) at register number `n`, the offset's bits 4..2
(30_encoding.md R60). -/
def headerOf (w : BitVec 1) (n : BitVec 3) : Header := w ++ (n ++ 0#2)

/-- The words of a well-formed instruction (30_encoding.md R60, R68, R77; spec/opcode_table.json). -/
def encode : Instr → Encoded
  | .nop => .cmd 0x00000000#32
  | .decodeL => .cmd 0x00000001#32
  | .decodeR => .cmd 0x00000002#32
  | .step => .cmd 0x00000003#32
  | .run => .cmd 0x00000004#32
  | .clear => .cmd 0x00000005#32
  | .reservedCmd word => .cmd word
  | .wrCmd data => .bus (headerOf 1#1 0#3) data
  | .wrCfg data => .bus (headerOf 1#1 1#3) data
  | .wrIgnored08_0C o data => .bus (headerOf 1#1 (1#2 ++ o)) data
  | .wrIgnored10_1C oo data => .bus (headerOf 1#1 (1#1 ++ oo)) data
  | .rdCmd => .bus (headerOf 0#1 0#3) 0#32
  | .rdCfg => .bus (headerOf 0#1 1#3) 0#32
  | .rdStatus => .bus (headerOf 0#1 2#3) 0#32
  | .rdFrames => .bus (headerOf 0#1 3#3) 0#32
  | .rdSampleL => .bus (headerOf 0#1 4#3) 0#32
  | .rdSampleR => .bus (headerOf 0#1 5#3) 0#32
  | .rdReserved o => .bus (headerOf 0#1 (3#2 ++ o)) 0#32

/-- Encoded words with the data field of a read, which no transaction carries, set to 0. -/
def Encoded.canonical : Encoded → Encoded
  | .cmd word => .cmd word
  | .bus header data => .bus header (if header.getLsbD 5 then data else 0#32)

/-- The host access that carries encoded words: a CMD word is the data word of a WR CMD transaction,
header 0x20 (30_encoding.md R67, R69). -/
def Encoded.transaction : Encoded → Transaction
  | .cmd word => ⟨.word, 0x20#6, word⟩
  | .bus header data => ⟨.word, header, data⟩

/-! ### The opcode table's numbering -/

/-- The words whose bits are `w`, numbered as spec/opcode_table.json numbers them: a row of 32 bits is a
CMD word; any other row is a header in the low byte, whose bits 7..6 are padding and must be 0, and
above it the data word. DESIGN CHOICE (log 10): where the header lies in its byte and the data after it. -/
def tableWords (nbits w : Nat) : Option Encoded :=
  if nbits = 32 then
    if w < 2 ^ 32 then some (.cmd (BitVec.ofNat 32 w)) else none
  else if w % 256 < 64 ∧ w / 256 < 2 ^ 32 then
    some (.bus (BitVec.ofNat 6 (w % 256)) (BitVec.ofNat 32 (w / 256)))
  else none

/-- The instruction the decoder reads from an opcode-table row's bits. -/
def decodeTableWord (nbits w : Nat) : Option Instr :=
  match tableWords nbits w with
  | none => none
  | some e =>
    match decode e with
    | .ok i => some i
    | .error _ => none

end Sys2Proof
end

