-- ==== Sys2Proof/Machine/State.lean ====
section
/-! DEFINITION. The state of the block, as plain data (10_state.md R20 to R32), with the inputs still to
come from outside it, and the state right after reset (70_reset_and_hazards.md R160). -/

namespace Sys2Proof.Machine

/-- A stream: its bytes from offset 0, without a hole (10_state.md R31, R32: "byte sequence"). The bytes
of a list lie at the rising addresses 0, 1, …, so equal streams are equal lists (log 11). -/
abbrev Memory := List Byte

/-- A stream as address and byte pairs, from address `at0` up. -/
def Memory.cellsFrom (at0 : Nat) : Memory → List Host.Cell
  | [] => []
  | b :: bs => (at0, b) :: Memory.cellsFrom (at0 + 1) bs

/-- A stream as address and byte pairs. -/
def Memory.cells (m : Memory) : List Host.Cell := m.cellsFrom 0

/-- The canonical form: addresses strictly rising, and the cells are all of the addresses below the
stream's length. -/
abbrev Memory.wf (m : Memory) : Prop :=
  m.cells.Pairwise (fun a b => a.1 < b.1) ∧ ∀ c ∈ m.cells, c.1 < m.length

/-- The two channels (00_scope.md R14). -/
inductive Chan where
  | left
  | right
  deriving DecidableEq, Repr

/-- One channel: its CFG fields, its result registers and its input stream with the read position
(00_scope.md R14: `WSEL[c]`, `LEBIT[c]`, `EXH[c]`, `SAMPLE[c]`, `IN_c`, `POS[c]`). -/
structure Channel where
  /-- CFG.c_WSEL: the word width minus 1 (10_state.md R21). -/
  wsel : BitVec 2
  /-- CFG.c_LE: true for a little-endian input (10_state.md R21). -/
  le : Bool
  /-- STATUS.EXH_c (10_state.md R24). -/
  exh : Bool
  /-- SAMPLE_c (10_state.md R28). -/
  sample : Word
  /-- IN_c.bytes (10_state.md R31). -/
  bytes : Memory
  /-- POS[c], the offset of the next byte to read (10_state.md R31). -/
  pos : Nat
  deriving DecidableEq, Repr

/-- What the host hands over before a session: two input streams, each open at a position, and the
output sink with what it already holds (70_reset_and_hazards.md R162; 10_state.md R31). -/
structure Streams where
  leftBytes : Memory
  leftPos : Nat
  rightBytes : Memory
  rightPos : Nat
  out : Memory
  deriving DecidableEq, Repr

/-- What happens next, in the one interleaving of host accesses, engine steps and outside events
(20_memory.md R54; 70_reset_and_hazards.md R163). -/
inductive Event where
  /-- The host's step: one access to the register port (30_encoding.md R60). -/
  | transaction (t : Transaction)
  /-- The engine's turn: its step, if STATUS.BUSY = 1 enables one (41_interleaver.md R105). -/
  | engine
  /-- Reset (70_reset_and_hazards.md R160). -/
  | reset
  /-- The host supplies the streams of a session (70_reset_and_hazards.md R162). -/
  | supply (streams : Streams)
  deriving DecidableEq, Repr

/-- The state of the block (10_state.md R20). The last three fields are the model's own: the host's side
of the register port and the counter of the free value (logs 2, 3, 6). -/
structure State where
  /-- The left channel. -/
  left : Channel
  /-- The right channel. -/
  right : Channel
  /-- STATUS.BUSY (10_state.md R22). -/
  busy : Bool
  /-- STATUS.DONE (10_state.md R23). -/
  done : Bool
  /-- STATUS.ERR (10_state.md R25). -/
  err : BitVec 2
  /-- FRAMES (10_state.md R27). -/
  frames : BitVec Config.framesW
  /-- OUT, whose length is OUT.len (10_state.md R32). -/
  out : Memory
  /-- Every word the bus has returned to the host's reads, oldest first (log 6). -/
  returned : List Word
  /-- How many fill values have been drawn; moves under FILL_MODE = ANY only (log 2). -/
  draws : Nat
  /-- What is still to happen, first first (log 3). -/
  events : List Event
  deriving DecidableEq, Repr

/-- There is no fault: "The block has no traps and no synchronous exceptions" (60_exceptions.md R140),
and the streams always answer (40_word_decoder.md R87). The type has no constructor (log 12). -/
inductive Fault where
  deriving DecidableEq, Repr

/-- Why a step has no next state. -/
inductive Refusal where
  /-- Raised by `exec` for an instruction that has no meaning yet. Safe: nothing is claimed of it. -/
  | notModelled (mnemonic : String)
  /-- Raised by `step` for a host access that spells no transaction (20_memory.md R47, 30_encoding.md R60,
  93_implementation_defined.md U9). Safe: the model has no run for it (log 9). -/
  | noTransaction (why : Reject)
  /-- Raised by `step` when the host supplies streams while BUSY = 1, which it must not do
  (70_reset_and_hazards.md R164, 93_implementation_defined.md U10): the model gives the host no such move.
  Unsafe for a host that does it: the spec says so itself (log 8). -/
  | streamsChangedWhileBusy
  /-- Raised by `step` when a supplied position lies past its stream's end, against 10_state.md R31
  "0 ≤ POS[c] ≤ len_c". Safe: no such stream position exists (log 8). -/
  | positionPastEnd
  deriving DecidableEq, Repr

/-- A channel right after reset: CFG fields, EXH and SAMPLE 0 (70_reset_and_hazards.md R160). The stream is
the host's and reset leaves it alone; here none has been supplied yet: DESIGN CHOICE (log 7), unsafe. -/
def Channel.reset : Channel :=
  { wsel := 0#2, le := false, exh := false, sample := 0#32, bytes := [], pos := 0 }

/-- The machine right after reset: every register 0 (70_reset_and_hazards.md R160), no stream supplied and
nothing pending (DESIGN CHOICE, log 7). -/
def State.reset : State :=
  { left := Channel.reset, right := Channel.reset, busy := false, done := false, err := 0#2,
    frames := 0#32, out := [], returned := [], draws := 0, events := [] }

end Sys2Proof.Machine
end

