-- ==== Sys2Proof/Machine/Operands.lean ====
section
/-! DEFINITION. Operands and data formats: the channel's configured width and order (40_word_decoder.md R81),
the value of a raw word (30_encoding.md R72; 40_word_decoder.md R82), its re-encoding (R84), the bytes of an
output word (00_scope.md R16; 30_encoding.md R74) and the CFG word (30_encoding.md R63, R64). -/

namespace Sys2Proof.Machine

/-! ### The implicit operands of a decode -/

/-- W_c = CFG.c_WSEL + 1 (30_encoding.md R71; 40_word_decoder.md R81). -/
def Channel.width (ch : Channel) : Nat := ch.wsel.toNat + 1

/-- The bytes of IN_c that are left to read. -/
def Channel.remaining (ch : Channel) : Nat := ch.bytes.length - ch.pos

/-! ### The value of a raw word (40_word_decoder.md R82) -/

/-- Byte-order normalisation: the bytes, least significant first. -/
def normalise (le : Bool) (raw : List Byte) : List Byte := if le then raw else raw.reverse

/-- Unsigned little-endian assembly of bytes numbered from `i`: byte `i` is or-ed in at bit 8·i. -/
def assembleFrom (i : Nat) : List Byte → Word
  | [] => 0#32
  | b :: bs => (b.setWidth 32 <<< (8 * i)) ||| assembleFrom (i + 1) bs

/-- Sign extension of a value of `w` bytes: bit 8·w-1 is copied into every bit above it. For `w` = 4 the
shift leaves nothing to copy. -/
def signExtendAt (w : Nat) (u : Word) : Word :=
  if u.getLsbD (8 * w - 1) then u ||| (0xFFFFFFFF#32 <<< (8 * w)) else u

/-- The canonical sample of a raw word of `w` bytes (30_encoding.md R72). -/
def sampleOf (w : Nat) (le : Bool) (raw : List Byte) : Word :=
  signExtendAt w (assembleFrom 0 (normalise le raw))

/-! ### The bytes of a word -/

/-- A word's bytes, least significant first. -/
def bytesLsbFirst (v : Word) : List Byte :=
  [v.extractLsb' 0 8, v.extractLsb' 8 8, v.extractLsb' 16 8, v.extractLsb' 24 8]

/-- `bytes4(v, order)` (00_scope.md R16; 30_encoding.md R74). -/
def bytes4 (v : Word) : ByteOrder → List Byte
  | .le => bytesLsbFirst v
  | .be => (bytesLsbFirst v).reverse

/-- `enc(v, W, le)`: a sample as a raw word of `w` bytes again (40_word_decoder.md R84). -/
def reencode (w : Nat) (le : Bool) (v : Word) : List Byte := normalise le ((bytesLsbFirst v).take w)

/-- The 8 bytes of a stereo frame, left first (30_encoding.md R73; 41_interleaver.md R111). -/
def frameBytes (order : ByteOrder) (l r : Word) : List Byte := bytes4 l order ++ bytes4 r order

/-! ### The CFG word -/

/-- A bit as a word. -/
def bitWord (b : Bool) : Word := if b then 1#32 else 0#32

/-- `cfgword(wl, lel, wr, rel)` for widths in 1..4 (30_encoding.md R64). -/
def cfgword (wl : Nat) (lel : Bool) (wr : Nat) (rel : Bool) : Word :=
  BitVec.ofNat 32 (wl - 1) ||| (bitWord lel <<< 2) ||| (BitVec.ofNat 32 (wr - 1) <<< 4)
    ||| (bitWord rel <<< 6)

/-- What a read of CFG returns: `cfgword` of the current fields (30_encoding.md R64; 42_control.md R123). -/
def State.cfgWord (s : State) : Word := cfgword s.left.width s.left.le s.right.width s.right.le

/-- L_WSEL of a CFG word (30_encoding.md R63). -/
def cfgLWsel (v : Word) : BitVec 2 := v.extractLsb' 0 2

/-- L_LE of a CFG word. -/
def cfgLLe (v : Word) : Bool := v.getLsbD 2

/-- R_WSEL of a CFG word. -/
def cfgRWsel (v : Word) : BitVec 2 := v.extractLsb' 4 2

/-- R_LE of a CFG word. -/
def cfgRLe (v : Word) : Bool := v.getLsbD 6

end Sys2Proof.Machine
end

