-- ==== Sys2Proof/Machine/Flags.lean ====
section
/-! DEFINITION. The status: the STATUS word (30_encoding.md R65; 42_control.md R124), the codes of
STATUS.ERR (60_exceptions.md R141) and the one exhaustion test (40_word_decoder.md R82, 90_conflicts.md C1).
No operation sets any other flag (10_state.md R26). -/

namespace Sys2Proof.Machine

/-- ERR code 0: no error since the last CLEAR or reset (60_exceptions.md R141). -/
def errNone : BitVec 2 := 0#2

/-- ERR code 1: a reserved CMD word. -/
def errRsvd : BitVec 2 := 1#2

/-- ERR code 2: a command or a CFG write while BUSY = 1. -/
def errBusy : BitVec 2 := 2#2

/-- What a read of STATUS returns (42_control.md R124). -/
def State.statusWord (s : State) : Word :=
  bitWord s.busy ||| (bitWord s.done <<< 1) ||| (bitWord s.left.exh <<< 2)
    ||| (bitWord s.right.exh <<< 3) ||| (s.err.setWidth 32 <<< 4)

/-- A read that obtained `raw` is short when it got fewer bytes than the width, none included
(40_word_decoder.md R82, R86). -/
def shortRead (w : Nat) (raw : List Byte) : Bool := decide (raw.length < w)

end Sys2Proof.Machine
end

