-- ==== Sys2Proof/Machine/Ops.lean ====
section
/-! DEFINITION. The shared operations: reaching a channel, the memory primitives of the streams
(00_scope.md R15), `raise CmdError` (R17), the BUSY rule (60_exceptions.md R143), returning a read's value,
reset (70_reset_and_hazards.md R160) and the supply of streams (R162). -/

namespace Sys2Proof.Machine

/-- The result of a step of this block. -/
abbrev Result := Host.Outcome State Fault Refusal

/-! ### Channels -/

/-- The state of channel `c` (00_scope.md R14). -/
def State.channel (s : State) : Chan → Channel
  | .left => s.left
  | .right => s.right

/-- The state with channel `c` replaced. -/
def State.setChannel (s : State) (c : Chan) (ch : Channel) : State :=
  match c with
  | .left => { s with left := ch }
  | .right => { s with right := ch }

/-! ### Streams (00_scope.md R15) -/

/-- `MemRead`: the bytes at offsets a .. min(a+n, len)-1, fewer than `n` at the end of the stream. -/
def memRead (m : Memory) (a n : Nat) : Memory := (m.drop a).take n

/-- `MemWrite`: the bytes `bs` at offsets a .. a+|bs|-1. The block calls it with `a` = OUT.len only. -/
def memWrite (m : Memory) (a : Nat) (bs : List Byte) : Memory :=
  m.take a ++ bs ++ m.drop (a + bs.length)

/-- One byte of a stream, if it has one at `a`. -/
def memByte (m : Memory) (a : Nat) : Option Byte := m[a]?

/-- The bytes that `StreamRead(c, n)` returns. -/
def streamBytes (ch : Channel) (n : Nat) : List Byte := memRead ch.bytes ch.pos n

/-- The channel after `StreamRead(c, n)`: POS[c] has moved past the bytes it returned. -/
def streamAdvance (ch : Channel) (n : Nat) : Channel :=
  { ch with pos := ch.pos + (streamBytes ch n).length }

/-- `WriteWord(v)`: append the word's bytes to OUT (00_scope.md R16). -/
def writeWord (b : Build) (v : Word) (s : State) : State :=
  { s with out := memWrite s.out s.out.length (bytes4 v b.nativeOrder) }

/-! ### Errors -/

/-- `raise CmdError(code)`, the only exception there is (00_scope.md R17; 60_exceptions.md R142, R146): the
first code since the last CLEAR or reset is kept, and nothing else changes. No state is saved, no vector is
taken, and there is nothing to return from (60_exceptions.md R146, R147). -/
def raiseCmdError (code : BitVec 2) (s : State) : State :=
  if s.err = errNone then { s with err := code } else s

/-- The BUSY rule: `op` when STATUS.BUSY = 0, CmdError(2) when it is 1 (60_exceptions.md R143). -/
def whenIdle (op : State → State) (s : State) : Result :=
  .next (if s.busy then raiseCmdError errBusy s else op s)

/-! ### Reads -/

/-- The bus returns `v` to the host: a read has no other effect (20_memory.md R50). -/
def returnWord (v : Word) (s : State) : Result := .next { s with returned := s.returned ++ [v] }

/-! ### Reset and the host's supply of streams -/

/-- A channel after reset: registers 0, stream and position as they were (70_reset_and_hazards.md R160). -/
def Channel.cleared (ch : Channel) : Channel :=
  { ch with wsel := 0#2, le := false, exh := false, sample := 0#32 }

/-- Reset, at any time: every register to its reset value; IN_c, POS[c] and OUT unchanged, and a run in
progress has ended (70_reset_and_hazards.md R160). What the host has read and what it will still do are
its own (log 17). -/
def resetBlock (s : State) : State :=
  { s with
    left := s.left.cleared, right := s.right.cleared, busy := false, done := false, err := errNone,
    frames := 0#32 }

/-- The host supplies the streams of a session (70_reset_and_hazards.md R162), only while BUSY = 0 (R164), at
positions its streams have (10_state.md R31). The block's registers are not touched. -/
def supplyStreams (streams : Streams) (s : State) : Result :=
  if s.busy then .refused .streamsChangedWhileBusy
  else if streams.leftPos ≤ streams.leftBytes.length ∧ streams.rightPos ≤ streams.rightBytes.length then
    .next { s with
      left := { s.left with bytes := streams.leftBytes, pos := streams.leftPos }
      right := { s.right with bytes := streams.rightBytes, pos := streams.rightPos }
      out := streams.out }
  else .refused .positionPastEnd

end Sys2Proof.Machine
end

