-- ==== Sys2Proof/Machine/WordDecoder.lean ====
section
/-! DEFINITION. The Word Decoder: DecodeWord (40_word_decoder.md R80 to R87) and the commands DECODE_L and
DECODE_R (R88, R89). -/

namespace Sys2Proof.Machine

/-- The fill value of the next short read (00_scope.md R8): 0, or a fresh draw. -/
def fillValue (b : Build) (draws : Nat) : Word :=
  match b.fillMode with
  | .zero => 0#32
  | .any => Config.draw32 draws

/-- The draws taken once a short read has had its fill value. -/
def drawsAfter (b : Build) (draws : Nat) : Nat :=
  match b.fillMode with
  | .zero => draws
  | .any => draws + 1

/-- Is the next read of this channel short? -/
def Channel.readsShort (ch : Channel) : Bool := shortRead ch.width (streamBytes ch ch.width)

/-- `DecodeWord` on one channel's own state, with the fill value a short read would take
(40_word_decoder.md R80, R82). -/
def decodeChannel (fill : Word) (ch : Channel) : Channel :=
  if ch.readsShort then
    { streamAdvance ch ch.width with exh := true, sample := fill }
  else
    { streamAdvance ch ch.width with
      exh := false, sample := sampleOf ch.width ch.le (streamBytes ch ch.width) }

/-- `DecodeWord(c)` (40_word_decoder.md R82). -/
def decodeWord (b : Build) (c : Chan) (s : State) : State :=
  { s.setChannel c (decodeChannel (fillValue b s.draws) (s.channel c)) with
    draws := if (s.channel c).readsShort then drawsAfter b s.draws else s.draws }

/-- DECODE_L (40_word_decoder.md R88). -/
def execDecodeL (s : State) : Result := whenIdle (decodeWord Config.build .left) s

/-- DECODE_R (40_word_decoder.md R89). -/
def execDecodeR (s : State) : Result := whenIdle (decodeWord Config.build .right) s

end Sys2Proof.Machine
end

