-- ==== Sys2Proof/Machine/Interleaver.lean ====
section
/-! DEFINITION. The Stereo Interleaver and output writer: ITERATE, WriteFrame, the commands STEP and RUN, and
the engine (41_interleaver.md R100 to R105). -/

namespace Sys2Proof.Machine

/-- `WriteFrame(l, r)`: left first, then right (41_interleaver.md R101). -/
def writeFrame (b : Build) (l r : Word) (s : State) : State := writeWord b r (writeWord b l s)

/-- What ITERATE returns (41_interleaver.md R100). -/
inductive LoopResult where
  | terminated
  | continues
  deriving DecidableEq, Repr

/-- Both channels decoded, left before right (41_interleaver.md R100, 20_memory.md R53). -/
def decodeBoth (b : Build) (s : State) : State := decodeWord b .right (decodeWord b .left s)

/-- The termination check (41_interleaver.md R100). -/
def State.bothExhausted (s : State) : Bool := s.left.exh && s.right.exh

/-- FRAMES <- FRAMES + 1 modulo 2^32 (41_interleaver.md R109). -/
def countFrame (s : State) : State := { s with frames := s.frames + 1 }

/-- `ITERATE()`, the loop body (41_interleaver.md R100). -/
def iterate (b : Build) (s : State) : LoopResult × State :=
  let t := decodeBoth b s
  if t.bothExhausted then (.terminated, t)
  else (.continues, countFrame (writeFrame b t.left.sample t.right.sample t))

/-- The body of STEP: one iteration, and DONE is its termination result (41_interleaver.md R103). -/
def stepOnce (b : Build) (s : State) : State :=
  match iterate b s with
  | (.terminated, t) => { t with done := true }
  | (.continues, t) => { t with done := false }

/-- The body of RUN (41_interleaver.md R104). -/
def startRun (s : State) : State := { s with frames := 0#32, done := false, busy := true }

/-- `EngineStep`, enabled when STATUS.BUSY = 1 (41_interleaver.md R105). -/
def engineStep (b : Build) (s : State) : State :=
  match iterate b s with
  | (.terminated, t) => { t with busy := false, done := true }
  | (.continues, t) => t

/-- The engine's turn: its step if it has one; when BUSY = 0 it has none and all state is held
(41_interleaver.md R105; 60_exceptions.md R155). -/
def engineTurn (b : Build) (s : State) : State := if s.busy then engineStep b s else s

/-- STEP (41_interleaver.md R103). -/
def execStep (s : State) : Result := whenIdle (stepOnce Config.build) s

/-- RUN (41_interleaver.md R104). -/
def execRun (s : State) : Result := whenIdle startRun s

end Sys2Proof.Machine
end

