-- ==== Sys2Proof/Machine/Control.lean ====
section
/-! DEFINITION. The control commands NOP, CLEAR and the reserved words, and the CMD register they are written
to (42_control.md R120, R121; 30_encoding.md R69, R70). -/

namespace Sys2Proof.Machine

/-- NOP: nothing, and accepted while BUSY = 1 (42_control.md R120). -/
def execNop (s : State) : Result := .next s

/-- The body of CLEAR (42_control.md R121). -/
def clearStatus (s : State) : State :=
  { s with
    left := { s.left with exh := false, sample := 0#32 }
    right := { s.right with exh := false, sample := 0#32 }
    done := false, err := errNone, frames := 0#32 }

/-- CLEAR (42_control.md R121). -/
def execClear (s : State) : Result := whenIdle clearStatus s

/-- A reserved CMD word: CmdError(1), also while BUSY = 1 (30_encoding.md R70; 60_exceptions.md R143). -/
def execReservedCmd (_word : Word) (s : State) : Result := .next (raiseCmdError errRsvd s)

/-- WR CMD: the command of the data word, the reserved check before the BUSY check, which each command that
needs it makes itself (30_encoding.md R69; 60_exceptions.md R145). -/
def execWrCmd (data : Word) (s : State) : Result :=
  if cmdRsv data ≠ 0#28 ∨ 6#4 ≤ cmdOp data then execReservedCmd data s
  else match (cmdOp data).toNat with
    | 0x0 => execNop s
    | 0x1 => execDecodeL s
    | 0x2 => execDecodeR s
    | 0x3 => execStep s
    | 0x4 => execRun s
    | _ => execClear s

end Sys2Proof.Machine
end

