-- ==== Sys2Proof/Machine/Registers.lean ====
section
/-! DEFINITION. Register writes and reads: CFG, the read-only and reserved offsets, STATUS, FRAMES and the
samples (42_control.md R122 to R126; 30_encoding.md R61). -/

namespace Sys2Proof.Machine

/-- The body of WR CFG: the four fields; v[3] and v[31:7] are ignored (42_control.md R122). -/
def writeCfg (v : Word) (s : State) : State :=
  { s with
    left := { s.left with wsel := cfgLWsel v, le := cfgLLe v }
    right := { s.right with wsel := cfgRWsel v, le := cfgRLe v } }

/-- WR CFG (42_control.md R122). -/
def execWrCfg (data : Word) (s : State) : Result := whenIdle (writeCfg data) s

/-- A write to STATUS or FRAMES: no effect, no error (30_encoding.md R61). -/
def execWrIgnored08_0C (_o : BitVec 1) (_data : Word) (s : State) : Result := .next s

/-- A write to SAMPLE_L, SAMPLE_R, 0x18 or 0x1C: no effect, no error (30_encoding.md R61). -/
def execWrIgnored10_1C (_oo : BitVec 2) (_data : Word) (s : State) : Result := .next s

/-- RD CMD returns 0 (30_encoding.md R61). -/
def execRdCmd (s : State) : Result := returnWord 0#32 s

/-- RD CFG (42_control.md R123). -/
def execRdCfg (s : State) : Result := returnWord s.cfgWord s

/-- RD STATUS (42_control.md R124). -/
def execRdStatus (s : State) : Result := returnWord s.statusWord s

/-- RD FRAMES (42_control.md R125). -/
def execRdFrames (s : State) : Result := returnWord s.frames s

/-- RD SAMPLE_L (42_control.md R126). -/
def execRdSampleL (s : State) : Result := returnWord s.left.sample s

/-- RD SAMPLE_R (42_control.md R126). -/
def execRdSampleR (s : State) : Result := returnWord s.right.sample s

/-- RD of a reserved offset returns 0 (30_encoding.md R61). -/
def execRdReserved (_o : BitVec 1) (s : State) : Result := returnWord 0#32 s

end Sys2Proof.Machine
end

