-- ==== Sys2Proof/Machine/Dispatch.lean ====
section
/-! DEFINITION. One arm per instruction. -/

namespace Sys2Proof.Machine

def exec (i : Instr) (s : State) : Host.Outcome State Fault Refusal :=
  match i with
  | .nop => Sys2Proof.Machine.execNop s
  | .decodeL => Sys2Proof.Machine.execDecodeL s
  | .decodeR => Sys2Proof.Machine.execDecodeR s
  | .step => Sys2Proof.Machine.execStep s
  | .run => Sys2Proof.Machine.execRun s
  | .clear => Sys2Proof.Machine.execClear s
  | .reservedCmd word => Sys2Proof.Machine.execReservedCmd word s
  | .wrCmd data => Sys2Proof.Machine.execWrCmd data s
  | .wrCfg data => Sys2Proof.Machine.execWrCfg data s
  | .wrIgnored08_0C o data => Sys2Proof.Machine.execWrIgnored08_0C o data s
  | .wrIgnored10_1C oo data => Sys2Proof.Machine.execWrIgnored10_1C oo data s
  | .rdCmd => Sys2Proof.Machine.execRdCmd s
  | .rdCfg => Sys2Proof.Machine.execRdCfg s
  | .rdStatus => Sys2Proof.Machine.execRdStatus s
  | .rdFrames => Sys2Proof.Machine.execRdFrames s
  | .rdSampleL => Sys2Proof.Machine.execRdSampleL s
  | .rdSampleR => Sys2Proof.Machine.execRdSampleR s
  | .rdReserved o => Sys2Proof.Machine.execRdReserved o s

end Sys2Proof.Machine
end

