-- ==== Sys2Proof/Machine/Step.lean ====
section
/-! DEFINITION. One step: the next event of the one interleaving (20_memory.md R54), and how a word of the
opcode table is put where it is fetched next. -/

namespace Sys2Proof.Machine

/-- The state with its pending events replaced. -/
def State.withEvents (s : State) (events : List Event) : State := { s with events := events }

/-- One atomic step (20_memory.md R49; 70_reset_and_hazards.md R163). The first pending event happens; a host
access is decoded and its operation executed. When nothing more comes from outside, the engine has the turn:
it steps while BUSY = 1, which is the fairness of R163, and the block idles otherwise (log 3, log 4). -/
def step (s : State) : Host.Outcome State Fault Refusal :=
  match s.events with
  | [] => .next (engineTurn Config.build s)
  | .engine :: rest => .next (engineTurn Config.build (s.withEvents rest))
  | .reset :: rest => .next (resetBlock (s.withEvents rest))
  | .supply streams :: rest => supplyStreams streams (s.withEvents rest)
  | .transaction t :: rest =>
    match decodeTransaction t with
    | .ok i => exec i (s.withEvents rest)
    | .error why => .refused (.noTransaction why)

/-- The words of an opcode-table row as the host's next access: a CMD word as the data word of a WR CMD
transaction, a header with its data word as it is. Bits that are no words of a row change nothing. -/
def State.withFetchWord (s : State) (nbits w : Nat) : State :=
  match tableWords nbits w with
  | none => s
  | some e => s.withEvents (.transaction e.transaction :: s.events)

end Sys2Proof.Machine
end

