-- ==== Sys2Proof/Safety.lean ====
section
/-! DEFINITION. The terms the claims use: the invariants of the machine, the value of a raw word as the spec's
formula gives it, the frames a run is to write, and runs of several steps. -/

namespace Sys2Proof.Machine

/-! ### Invariants -/

/-- What holds in every reachable state: 0 ≤ POS[c] ≤ len_c (10_state.md R31), ERR code 3 is never produced
(R25), and DONE is 0 while a run is in progress (R23, 41_interleaver.md R104, R105). -/
structure State.Inv (s : State) : Prop where
  leftPos : s.left.pos ≤ s.left.bytes.length
  rightPos : s.right.pos ≤ s.right.bytes.length
  errLegal : s.err ≠ 3#2
  runningNotDone : s.busy = true → s.done = false

/-- An exhausted channel stands at the end of its stream. -/
abbrev Channel.ExhaustedAtEnd (ch : Channel) : Prop := ch.exh = true → ch.pos = ch.bytes.length

/-- What holds for as long as the host hands over no new stream: an exhausted channel is at its end
(10_state.md R24, 40_word_decoder.md R86), and DONE says that both are exhausted (10_state.md R23). -/
structure State.SessionInv (s : State) : Prop extends s.Inv where
  leftEnd : s.left.ExhaustedAtEnd
  rightEnd : s.right.ExhaustedAtEnd
  doneExhausted : s.done = true → s.left.exh = true ∧ s.right.exh = true

/-! ### Values by the spec's formulas -/

/-- The unsigned value of bytes of rising weight: byte `i` has weight 2^(8i). -/
def valueLsbFirst : List Byte → Int
  | [] => 0
  | b :: bs => b.toNat + 256 * valueLsbFirst bs

/-- The unsigned value of bytes of falling weight: byte `i` of `n` has weight 2^(8(n-1-i)). -/
def valueMsbFirst : List Byte → Int
  | [] => 0
  | b :: bs => b.toNat * 256 ^ bs.length + valueMsbFirst bs

/-- Bit 7 of the most significant byte: the sign of a raw word (30_encoding.md R72). -/
def signOfRaw (le : Bool) (raw : List Byte) : Bool :=
  ((if le then raw.getLast? else raw.head?).getD 0#8).getLsbD 7

/-- The two's-complement value of a raw word (30_encoding.md R72, 40_word_decoder.md R85). -/
def rawValue (le : Bool) (raw : List Byte) : Int :=
  (if le then valueLsbFirst raw else valueMsbFirst raw)
    - (if signOfRaw le raw then 2 ^ (8 * raw.length) else 0)

/-- The raw word at the read position. -/
def Channel.nextRaw (ch : Channel) : List Byte := memRead ch.bytes ch.pos ch.width

/-! ### Runs -/

/-- The words of a channel that are still readable: floor(n_c / W_c) (41_interleaver.md R106). -/
def Channel.readable (ch : Channel) : Nat := ch.remaining / ch.width

/-- F, the frames a run from this state writes (41_interleaver.md R106). -/
def State.framesToCome (s : State) : Nat := max s.left.readable s.right.readable

/-- What frame `k` of a run holds in this channel's lane under FILL_MODE = ZERO: the channel's word `k`, or 0
once it has none (41_interleaver.md R108). -/
def Channel.lane (ch : Channel) (k : Nat) : Word :=
  if k < ch.readable then sampleOf ch.width ch.le (memRead ch.bytes (ch.pos + k * ch.width) ch.width)
  else 0#32

/-- The state after `n` engine steps. -/
def engineSteps (b : Build) : Nat → State → State
  | 0, s => s
  | n + 1, s => engineStep b (engineSteps b n s)

/-- `n` steps of the machine, stopping at the first refusal. -/
def runSteps : Nat → State → Result
  | 0, s => .next s
  | n + 1, s =>
    match step s with
    | .next t => runSteps n t
    | .fault r => .fault r
    | .refused r => .refused r

/-- The other channel. -/
def Chan.other : Chan → Chan
  | .left => .right
  | .right => .left

/-- The DECODE command of a channel. -/
def Chan.decodeCmd : Chan → Instr
  | .left => .decodeL
  | .right => .decodeR

/-- The command a WR CMD transaction carries; every other instruction is itself. -/
def commandOf : Instr → Instr
  | .wrCmd data => decodeCommand data
  | i => i

/-- Two states agree on everything a run reads or writes: what they may differ in is STATUS.ERR, what the
host has read and what is still to come. -/
structure SameRun (s t : State) : Prop where
  left : t.left = s.left
  right : t.right = s.right
  busy : t.busy = s.busy
  done : t.done = s.done
  frames : t.frames = s.frames
  out : t.out = s.out
  draws : t.draws = s.draws

/-- Does the host hand over streams? -/
def Event.isSupply : Event → Bool
  | .supply _ => true
  | .transaction _ => false
  | .engine => false
  | .reset => false

/-- Events of a run that nothing from outside ends: engine turns, and host accesses that spell a transaction. -/
def Event.duringRun : Event → Bool
  | .engine => true
  | .transaction t => (decodeTransaction t).toBool
  | .supply _ => false
  | .reset => false

end Sys2Proof.Machine
end

