-- ==== Sys2Proof/Certificates/Slice0/Obligations.lean ====
section
/-! DEFINITION. The statements for the provers. Each docstring names the rules of spec/ it rests on. -/

open Sys2Proof Sys2Proof.Machine

/-! ### Encoding and decoding -/

/-- Decode and encode agree (30_encoding.md R60, R68, R70, R77): a well-formed instruction's words decode to
it, and words that decode are the words of the instruction they decode to, but for a read's data field. -/
def Obligations.DecodeAndEncodeAgree : Prop :=
  (∀ i : Instr, i.wellFormed = true → decode (encode i) = .ok i)
  ∧ ∀ (e : Encoded) (i : Instr), decode e = .ok i → i.wellFormed = true ∧ encode i = e.canonical

/-- The command words of 30_encoding.md R68. -/
def Obligations.CommandWordsDecode : Prop :=
  decodeCommand 0x00000000#32 = .nop
  ∧ decodeCommand 0x00000001#32 = .decodeL
  ∧ decodeCommand 0x00000002#32 = .decodeR
  ∧ decodeCommand 0x00000003#32 = .step
  ∧ decodeCommand 0x00000004#32 = .run
  ∧ decodeCommand 0x00000005#32 = .clear
  ∧ ∀ op : BitVec 4, 6#4 ≤ op → decodeCommand (op.setWidth 32) = .reservedCmd (op.setWidth 32)

/-- The transaction headers of 30_encoding.md R77. -/
def Obligations.HeadersDecodeToTheirOperations : Prop :=
  ∀ data : Word,
    decodeHeader 0x20#6 data = .ok (.wrCmd data)
    ∧ decodeHeader 0x24#6 data = .ok (.wrCfg data)
    ∧ decodeHeader 0x28#6 data = .ok (.wrIgnored08_0C 0#1 data)
    ∧ decodeHeader 0x2C#6 data = .ok (.wrIgnored08_0C 1#1 data)
    ∧ decodeHeader 0x30#6 data = .ok (.wrIgnored10_1C 0#2 data)
    ∧ decodeHeader 0x34#6 data = .ok (.wrIgnored10_1C 1#2 data)
    ∧ decodeHeader 0x38#6 data = .ok (.wrIgnored10_1C 2#2 data)
    ∧ decodeHeader 0x3C#6 data = .ok (.wrIgnored10_1C 3#2 data)
    ∧ decodeHeader 0x00#6 data = .ok .rdCmd
    ∧ decodeHeader 0x04#6 data = .ok .rdCfg
    ∧ decodeHeader 0x08#6 data = .ok .rdStatus
    ∧ decodeHeader 0x0C#6 data = .ok .rdFrames
    ∧ decodeHeader 0x10#6 data = .ok .rdSampleL
    ∧ decodeHeader 0x14#6 data = .ok .rdSampleR
    ∧ decodeHeader 0x18#6 data = .ok (.rdReserved 0#1)
    ∧ decodeHeader 0x1C#6 data = .ok (.rdReserved 1#1)
    ∧ ∀ h : Header, h.extractLsb' 0 2 ≠ 0#2 → decodeHeader h data = .error .misalignedOffset

/-- 20_memory.md R47: an access that is not 32 bits wide, or not aligned on 4 bytes, is refused, and no other
access is. -/
def Obligations.SubWordAndMisalignedAccessesAreRefused : Prop :=
  ∀ (s : State) (t : Transaction) (rest : List Event), s.events = .transaction t :: rest →
    ((∃ r, step s = .refused r) ↔ (t.width ≠ .word ∨ t.header.extractLsb' 0 2 ≠ 0#2))

/-- A step runs the instruction that the next access decodes to, in the state in which that access is no longer
pending; nothing else happens in the step (20_memory.md R49).
That accesses stand in a list of events is the model's choice (log 3). -/
def Obligations.StepRunsTheDecodedInstruction : Prop :=
  ∀ (s : State) (t : Transaction) (rest : List Event) (i : Instr),
    s.events = .transaction t :: rest → decodeTransaction t = .ok i →
      step s = exec i { s with events := rest }

/-- Words of the opcode table put where the next access is fetched run as the instruction they decode to; for a
CMD word this goes through the WR CMD transaction that carries it (30_encoding.md R67, R69).
The numbering in whole bytes and the two levels are the model's (logs 10 and 13). -/
def Obligations.TableWordsRunWhatTheyDecodeTo : Prop :=
  ∀ (s : State) (nbits w : Nat) (i : Instr), decodeTableWord nbits w = some i →
    step (s.withFetchWord nbits w) = exec i s

/-- 30_encoding.md R69: decoding a CMD write, total over all words, the reserved check before the BUSY check. -/
def Obligations.CmdWriteRunsItsCommand : Prop :=
  ∀ (v : Word) (s : State),
    ((v.extractLsb' 4 28 ≠ 0#28 ∨ 6#4 ≤ v.extractLsb' 0 4) →
        exec (.wrCmd v) s = .next (raiseCmdError 1#2 s))
    ∧ (v = 0#32 → exec (.wrCmd v) s = .next s)
    ∧ (s.busy = true → (v = 1#32 ∨ v = 2#32 ∨ v = 3#32 ∨ v = 4#32 ∨ v = 5#32) →
        exec (.wrCmd v) s = .next (raiseCmdError 2#2 s))
    ∧ (s.busy = false → v = 1#32 → exec (.wrCmd v) s = .next (decodeWord Config.build .left s))
    ∧ (s.busy = false → v = 2#32 → exec (.wrCmd v) s = .next (decodeWord Config.build .right s))
    ∧ (s.busy = false → v = 3#32 → exec (.wrCmd v) s = .next (stepOnce Config.build s))
    ∧ (s.busy = false → v = 4#32 → exec (.wrCmd v) s = .next (startRun s))
    ∧ (s.busy = false → v = 5#32 → exec (.wrCmd v) s = .next (clearStatus s))

/-! ### Errors -/

/-- 60_exceptions.md R146: `raise CmdError(code)` records the code only if ERR = 0, and nothing else changes. -/
def Obligations.RaiseRecordsTheFirstError : Prop :=
  ∀ (code : BitVec 2) (s : State),
    (s.err = 0#2 → raiseCmdError code s = { s with err := code })
    ∧ (s.err ≠ 0#2 → raiseCmdError code s = s)

/-- 30_encoding.md R70: every word with RSV ≠ 0 or OP in 0x6 to 0xF is reserved and rejected with ERR = 1 if ERR
was 0; no CMD word is without a next state; CFG's reserved bits are ignored on write, read as 0, and no error. -/
def Obligations.ReservedEncodingsAreRejected : Prop :=
  (∀ (v : Word) (s : State), (v.extractLsb' 4 28 ≠ 0#28 ∨ 6#4 ≤ v.extractLsb' 0 4) →
    decodeCommand v = .reservedCmd v
    ∧ exec (.reservedCmd v) s = .next { s with err := if s.err = 0#2 then 1#2 else s.err }
    ∧ exec (.wrCmd v) s = .next { s with err := if s.err = 0#2 then 1#2 else s.err })
  ∧ (∀ (v : Word) (s : State), ∃ t, exec (.wrCmd v) s = .next t)
  ∧ (∀ (v : Word) (s : State), exec (.wrCfg v) s = exec (.wrCfg (v &&& 0x00000077#32)) s)
  ∧ (∀ (v : Word) (s : State), s.busy = false → ∃ t, exec (.wrCfg v) s = .next t ∧ t.err = s.err)
  ∧ ∀ s : State, s.cfgWord &&& 0xFFFFFF88#32 = 0#32

/-- 60_exceptions.md R143, the BUSY rule. -/
def Obligations.BusyRule : Prop :=
  ∀ s : State, s.busy = true →
    (∀ i ∈ [Instr.decodeL, .decodeR, .step, .run, .clear], exec i s = .next (raiseCmdError 2#2 s))
    ∧ (∀ v : Word, (decodeCommand v = .decodeL ∨ decodeCommand v = .decodeR ∨ decodeCommand v = .step
          ∨ decodeCommand v = .run ∨ decodeCommand v = .clear) →
        exec (.wrCmd v) s = .next (raiseCmdError 2#2 s))
    ∧ (∀ v : Word, exec (.wrCfg v) s = .next (raiseCmdError 2#2 s))
    ∧ (∀ v : Word, decodeCommand v = .reservedCmd v → exec (.wrCmd v) s = .next (raiseCmdError 1#2 s))
    ∧ exec .nop s = .next s ∧ exec (.wrCmd 0#32) s = .next s
    ∧ (∀ i ∈ [Instr.rdCmd, .rdCfg, .rdStatus, .rdFrames, .rdSampleL, .rdSampleR, .rdReserved 0#1, .rdReserved 1#1],
        ∃ v, exec i s = .next { s with returned := s.returned ++ [v] })
    ∧ (∀ (o : BitVec 1) (v : Word), exec (.wrIgnored08_0C o v) s = .next s)
    ∧ (∀ (oo : BitVec 2) (v : Word), exec (.wrIgnored10_1C oo v) s = .next s)
    ∧ ∀ (i : Instr) (t : State), exec i s = .next t → t.busy = true ∧ t.cfgWord = s.cfgWord

/-- 60_exceptions.md R142: a rejected operation has no effect but the possible write of ERR, and a run in progress
goes on exactly as if the access had not happened. -/
def Obligations.RejectedOperationsArePrecise : Prop :=
  (∀ (w : Word) (s : State), ∃ e, exec (.reservedCmd w) s = .next { s with err := e })
  ∧ (∀ (i : Instr) (s : State), s.busy = true →
      (∃ e, exec i s = .next { s with err := e }) ∨ (∃ v, exec i s = .next { s with returned := s.returned ++ [v] }))
  ∧ ∀ (b : Build) (i : Instr) (s t : State) (n : Nat), s.busy = true → exec i s = .next t →
      SameRun s t ∧ SameRun (engineSteps b n s) (engineSteps b n t)

/-- 60_exceptions.md R147: ERR is cleared only by CLEAR, itself rejected while BUSY = 1, and by reset; an error
raised while ERR ≠ 0 is dropped. -/
def Obligations.OnlyClearAndResetClearErr : Prop :=
  (∀ (code : BitVec 2) (s : State), s.err ≠ 0#2 → raiseCmdError code s = s)
  ∧ ∀ s t : State, step s = .next t → s.err ≠ 0#2 →
      t.err = s.err
      ∨ t.err = 0#2 ∧ ((∃ rest, s.events = .reset :: rest)
          ∨ s.busy = false ∧ ∃ tr rest i, s.events = .transaction tr :: rest ∧ decodeTransaction tr = .ok i
              ∧ commandOf i = .clear)

/-- No instruction stops the machine, in any state: "The block has no traps" (60_exceptions.md R140), and every
operation has an effect the spec gives (40_word_decoder.md R87, 41_interleaver.md R101). -/
def Obligations.EveryInstructionHasANextState : Prop :=
  ∀ (i : Instr) (s : State), ∃ t, exec i s = .next t

/-! ### The Word Decoder -/

/-- `DecodeWord(c)` of every build (40_word_decoder.md R82, 00_scope.md R8, 40_word_decoder.md R85): a full read
consumes W bytes and leaves the raw word's two's-complement value; a short read consumes what is left and leaves
the fill value, 0 under ZERO and a fresh draw under ANY. This hardware takes ZERO.
The count of draws is the model's field (log 2). -/
def Obligations.DecodeWordReadsOneWord : Prop :=
  Config.build.fillMode = .zero
  ∧ ∀ (b : Build) (c : Chan) (s : State) (ch : Channel) (w : Nat), s.channel c = ch → w = ch.wsel.toNat + 1 →
      ch.pos ≤ ch.bytes.length →
    (ch.pos + w ≤ ch.bytes.length → ∃ v : Word, v.toInt = rawValue ch.le (memRead ch.bytes ch.pos w)
      ∧ decodeWord b c s = s.setChannel c { ch with pos := ch.pos + w, exh := false, sample := v })
    ∧ (ch.bytes.length < ch.pos + w → b.fillMode = .zero →
      decodeWord b c s = s.setChannel c { ch with pos := ch.bytes.length, exh := true, sample := 0#32 })
    ∧ (ch.bytes.length < ch.pos + w → b.fillMode = .any →
      decodeWord b c s =
        { s.setChannel c { ch with pos := ch.bytes.length, exh := true, sample := Config.draw32 s.draws } with
          draws := s.draws + 1 })

/-- DECODE_L and DECODE_R (40_word_decoder.md R88, R89): encoding, result on a full and on a short read, everything
else unchanged, the BUSY error, and the byte order without effect at W = 1. -/
def Obligations.DecodeCommandsReadOneWord : Prop :=
  decodeCommand 1#32 = .decodeL ∧ decodeCommand 2#32 = .decodeR
  ∧ Chan.left.decodeCmd = .decodeL ∧ Chan.right.decodeCmd = .decodeR
  ∧ ∀ (c : Chan) (s : State) (ch : Channel) (w : Nat), s.channel c = ch → w = ch.wsel.toNat + 1 →
    (s.busy = true → exec c.decodeCmd s = .next (raiseCmdError 2#2 s))
    ∧ (s.busy = false → ch.pos + w ≤ ch.bytes.length →
        ∃ v : Word, v.toInt = rawValue ch.le (memRead ch.bytes ch.pos w)
          ∧ exec c.decodeCmd s = .next (s.setChannel c { ch with pos := ch.pos + w, exh := false, sample := v }))
    ∧ (s.busy = false → ch.pos ≤ ch.bytes.length → ch.bytes.length < ch.pos + w →
        exec c.decodeCmd s =
          .next (s.setChannel c { ch with pos := ch.bytes.length, exh := true, sample := 0#32 }))
    ∧ (w = 1 → ch.pos + w ≤ ch.bytes.length →
        rawValue true (memRead ch.bytes ch.pos w) = rawValue false (memRead ch.bytes ch.pos w))

/-- Short reads in detail (40_word_decoder.md R86): with nothing left the position stays, a partial word is
consumed, ERR is not set, and every later decode of the channel is a zero-byte short read, whatever W is then. -/
def Obligations.ShortReadsStayAtTheEnd : Prop :=
  ∀ (b : Build) (c : Chan) (s : State), (s.channel c).pos ≤ (s.channel c).bytes.length →
      (s.channel c).bytes.length < (s.channel c).pos + (s.channel c).width →
    ((decodeWord b c s).channel c).pos = (s.channel c).bytes.length
    ∧ ((decodeWord b c s).channel c).exh = true
    ∧ ((decodeWord b c s).channel c).sample = fillValue b s.draws
    ∧ (b.fillMode = .any → (decodeWord b c s).draws = s.draws + 1)
    ∧ (decodeWord b c s).err = s.err
    ∧ ∀ (wsel : BitVec 2) (le : Bool) (u : State),
        u = (decodeWord b c s).setChannel c { (decodeWord b c s).channel c with wsel := wsel, le := le } →
        streamBytes (u.channel c) (u.channel c).width = []
        ∧ ((decodeWord b c u).channel c).pos = (u.channel c).pos
        ∧ ((decodeWord b c u).channel c).exh = true

/-- The sign bit and the extension (40_word_decoder.md R83): for each width, bit 8W-1 is the raw word's sign and
every bit above it equals it, and the sample's range is that of 8W bits. -/
def Obligations.SamplesAreSignExtended : Prop :=
  ∀ (b : Build) (c : Chan) (s : State) (w : Nat) (v : Word), w = (s.channel c).wsel.toNat + 1 →
      (s.channel c).pos + w ≤ (s.channel c).bytes.length → v = ((decodeWord b c s).channel c).sample →
    v.getLsbD (8 * w - 1) = signOfRaw (s.channel c).le (memRead (s.channel c).bytes (s.channel c).pos w)
    ∧ (∀ k, 8 * w - 1 ≤ k → k < 32 → v.getLsbD k = v.getLsbD (8 * w - 1))
    ∧ -(2 ^ (8 * w - 1)) ≤ v.toInt ∧ v.toInt < 2 ^ (8 * w - 1)

/-- The round trip (40_word_decoder.md R84): re-encoding a decoded sample with its width and order gives the raw
bytes back, so a decode is injective on the raw words of one width and order. -/
def Obligations.DecodeRoundTrips : Prop :=
  (∀ (b : Build) (c : Chan) (s : State),
      (s.channel c).pos + (s.channel c).width ≤ (s.channel c).bytes.length →
    reencode (s.channel c).width (s.channel c).le ((decodeWord b c s).channel c).sample
      = memRead (s.channel c).bytes (s.channel c).pos (s.channel c).width)
  ∧ ∀ (w : Nat) (le : Bool) (raw raw' : List Byte), 1 ≤ w → w ≤ 4 → raw.length = w → raw'.length = w →
      sampleOf w le raw = sampleOf w le raw' → raw = raw'

/-- Channel independence (40_word_decoder.md R80): a decode of one channel commutes with any change of the other
channel's whole state, and leaves that state as it is. -/
def Obligations.ChannelsAreIndependent : Prop :=
  ∀ (b : Build) (c : Chan) (s : State) (other : Channel),
    (decodeWord b c s).channel c.other = s.channel c.other
    ∧ decodeWord b c (s.setChannel c.other other) = (decodeWord b c s).setChannel c.other other

/-- 20_memory.md R46: with CFG fixed, the position stays a multiple of W, or is at the end. -/
def Obligations.PositionsStayAligned : Prop :=
  ∀ (b : Build) (c : Chan) (s : State), (s.channel c).pos ≤ (s.channel c).bytes.length →
      ((s.channel c).width ∣ (s.channel c).pos ∨ (s.channel c).pos = (s.channel c).bytes.length) →
    ((decodeWord b c s).channel c).width = (s.channel c).width
    ∧ ((s.channel c).width ∣ ((decodeWord b c s).channel c).pos
      ∨ ((decodeWord b c s).channel c).exh = true
        ∧ ((decodeWord b c s).channel c).pos = ((decodeWord b c s).channel c).bytes.length)

/-! ### The interleaver -/

/-- ITERATE and WriteFrame (41_interleaver.md R100, R101): left decoded before right; no frame when both are
exhausted; otherwise the left word and then the right word are appended, 8 bytes, and FRAMES counts it. -/
def Obligations.IterateDecodesBothAndWritesAFrame : Prop :=
  ∀ (b : Build) (s t : State), t = decodeWord b .right (decodeWord b .left s) →
    (t.left.exh = true ∧ t.right.exh = true → iterate b s = (.terminated, t))
    ∧ (¬ (t.left.exh = true ∧ t.right.exh = true) →
        iterate b s = (.continues, { t with
          out := t.out ++ (bytes4 t.left.sample b.nativeOrder ++ bytes4 t.right.sample b.nativeOrder)
          frames := t.frames + 1 })
        ∧ (iterate b s).2.out.length = s.out.length + 8)

/-- Both channels are decoded in every iteration, exhausted or not (41_interleaver.md R102): a channel at its end
changes in SAMPLE and EXH only, and when exactly one channel is short the frame is written with its fill value, 0
under FILL_MODE = ZERO and a draw under ANY. -/
def Obligations.ExhaustedChannelsAreStillRead : Prop :=
  ∀ (b : Build) (s t : State), t = (iterate b s).2 →
    t.left = (decodeWord b .left s).left
    ∧ t.right = (decodeWord b .right (decodeWord b .left s)).right
    ∧ (∀ c, (s.channel c).pos = (s.channel c).bytes.length →
        t.channel c = { s.channel c with exh := true, sample := (t.channel c).sample })
    ∧ (s.left.remaining < s.left.width → s.right.width ≤ s.right.remaining →
        t.left.sample = (if b.fillMode = .zero then 0#32 else Config.draw32 s.draws)
        ∧ t.out = s.out ++ (bytes4 t.left.sample b.nativeOrder ++ bytes4 t.right.sample b.nativeOrder))
    ∧ (s.left.width ≤ s.left.remaining → s.right.remaining < s.right.width →
        t.right.sample = (if b.fillMode = .zero then 0#32 else Config.draw32 s.draws)
        ∧ t.out = s.out ++ (bytes4 t.left.sample b.nativeOrder ++ bytes4 t.right.sample b.nativeOrder))

/-- STEP (41_interleaver.md R103): encoding, the BUSY error, one iteration with DONE as its termination result, and
the corner cases at the end of the streams. -/
def Obligations.StepCommandRunsOneIteration : Prop :=
  decodeCommand 3#32 = .step
  ∧ ∀ (s t : State), t = decodeWord Config.build .right (decodeWord Config.build .left s) →
    (s.busy = true → exec .step s = .next (raiseCmdError 2#2 s))
    ∧ (s.busy = false → t.left.exh = true ∧ t.right.exh = true → exec .step s = .next { t with done := true })
    ∧ (s.busy = false → ¬ (t.left.exh = true ∧ t.right.exh = true) →
        exec .step s = .next { t with
          done := false
          out := s.out ++ (bytes4 t.left.sample Config.nativeOrder ++ bytes4 t.right.sample Config.nativeOrder)
          frames := s.frames + 1 })
    ∧ (s.busy = false → s.left.pos = s.left.bytes.length → s.right.pos = s.right.bytes.length →
        ∃ u, exec .step s = .next u ∧ u.done = true ∧ u.out = s.out ∧ u.frames = s.frames
          ∧ exec .step u = .next u)
    ∧ (s.busy = false → s.left.pos = s.left.bytes.length → s.right.width ≤ s.right.remaining →
        ∃ u, exec .step s = .next u ∧ u.done = false
          ∧ u.out = s.out ++ (bytes4 0#32 Config.nativeOrder ++ bytes4 u.right.sample Config.nativeOrder))
    ∧ (s.busy = false → s.left.width ≤ s.left.remaining → s.right.pos = s.right.bytes.length →
        ∃ u, exec .step s = .next u ∧ u.done = false
          ∧ u.out = s.out ++ (bytes4 u.left.sample Config.nativeOrder ++ bytes4 0#32 Config.nativeOrder))

/-- RUN as accepted (41_interleaver.md R104): encoding, the BUSY error, FRAMES and DONE cleared and BUSY set with
everything else unchanged; with both streams at their end one engine step ends it; no instruction stops it. -/
def Obligations.RunCommandStartsTheEngine : Prop :=
  decodeCommand 4#32 = .run
  ∧ (∀ s : State, s.busy = true → exec .run s = .next (raiseCmdError 2#2 s))
  ∧ (∀ s : State, s.busy = false → exec .run s = .next { s with frames := 0#32, done := false, busy := true })
  ∧ (∀ (b : Build) (s t : State), s.busy = false → exec .run s = .next t →
      s.left.pos = s.left.bytes.length → s.right.pos = s.right.bytes.length →
      (engineStep b t).busy = false ∧ (engineStep b t).done = true ∧ (engineStep b t).frames = 0#32
        ∧ (engineStep b t).out = s.out)
  ∧ ∀ (i : Instr) (s t : State), s.busy = true → exec i s = .next t → t.busy = true

/-- EngineStep (41_interleaver.md R105): none when BUSY = 0; when BUSY = 1 one iteration, and a terminated one clears
BUSY and sets DONE; neither the engine nor, while BUSY = 1, any instruction changes CFG, so that a run uses one
configuration. -/
def Obligations.EngineStepIteratesWhileBusy : Prop :=
  (∀ (b : Build) (s : State), s.busy = false → engineTurn b s = s)
  ∧ (∀ (b : Build) (s t : State), s.busy = true → iterate b s = (.terminated, t) →
        engineTurn b s = { t with busy := false, done := true })
  ∧ (∀ (b : Build) (s t : State), s.busy = true → iterate b s = (.continues, t) → engineTurn b s = t ∧ t.busy = true)
  ∧ (∀ (b : Build) (s : State), (engineTurn b s).cfgWord = s.cfgWord)
  ∧ ∀ (i : Instr) (s t : State), s.busy = true → exec i s = .next t → t.cfgWord = s.cfgWord

/-- The engine's steps are steps of the machine: on its turn, and whenever nothing more comes from outside, until the run
has ended. That an empty list of events leaves the turn to the engine, and that an idle block then keeps its state, is
the model's choice (logs 3 and 4; 70_reset_and_hazards.md R163 asks only for fairness). -/
def Obligations.TheMachineTakesTheEngineSteps : Prop :=
  (∀ (s : State) (rest : List Event), s.events = .engine :: rest →
      step s = .next (engineTurn Config.build { s with events := rest }))
  ∧ (∀ s : State, s.events = [] → s.busy = false → step s = .next s)
  ∧ ∀ (s : State) (k : Nat), s.events = [] → s.busy = true → k ≤ s.framesToCome + 1 →
      runSteps k s = .next (engineSteps Config.build k s)

/-- The frame count of a run (41_interleaver.md R106): F = max(floor(n_L/W_L), floor(n_R/W_R)) frames in exactly
F + 1 engine steps, FRAMES = F mod 2^32, and in iteration j a channel's decode succeeds if and only if
j < floor(n_c/W_c). For every build. -/
def Obligations.RunWritesTheMaximumOfTheReadableWords : Prop :=
  ∀ (b : Build) (s0 s : State) (F : Nat), s0.busy = false → exec .run s0 = .next s →
      F = max ((s0.left.bytes.length - s0.left.pos) / (s0.left.wsel.toNat + 1))
              ((s0.right.bytes.length - s0.right.pos) / (s0.right.wsel.toNat + 1)) →
    (∀ k ≤ F, (engineSteps b k s).busy = true ∧ (engineSteps b k s).frames = BitVec.ofNat 32 k
      ∧ (engineSteps b k s).out.length = s0.out.length + 8 * k)
    ∧ (∀ j ≤ F, ∀ c, ((engineSteps b (j + 1) s).channel c).exh = false
        ↔ j < ((s0.channel c).bytes.length - (s0.channel c).pos) / ((s0.channel c).wsel.toNat + 1))
    ∧ (engineSteps b (F + 1) s).busy = false
    ∧ (engineSteps b (F + 1) s).done = true
    ∧ (engineSteps b (F + 1) s).frames = BitVec.ofNat 32 F
    ∧ (engineSteps b (F + 1) s).out.length = s0.out.length + 8 * F

/-- A whole RUN (70_reset_and_hazards.md R170, 41_interleaver.md R108, 30_encoding.md R73): BUSY = 1 through the first F
engine steps and 0 after the next; then OUT holds what it held and after it F frames, frame k in bytes 8k to 8k+7 with
each channel's word k, or 0 in the lane of a channel that has none; FRAMES = F, DONE = 1, both exhausted. A run that
reset ends leaves DONE = 0. -/
def Obligations.RunProducesTheInterleavedFrames : Prop :=
  (∀ (s0 s t : State) (F : Nat), s0.busy = false → exec .run s0 = .next s → F = s0.framesToCome →
      t = engineSteps Config.build (F + 1) s →
    (∀ k ≤ F, (engineSteps Config.build k s).busy = true)
    ∧ (∀ k < F, k < s0.left.readable ∨ k < s0.right.readable)
    ∧ t.busy = false ∧ t.done = true ∧ t.left.exh = true ∧ t.right.exh = true ∧ t.frames = BitVec.ofNat 32 F
    ∧ t.out.length = s0.out.length + 8 * F
    ∧ (∀ a < s0.out.length, memByte t.out a = memByte s0.out a)
    ∧ ∀ k < F, memRead t.out (s0.out.length + 8 * k) 8
        = bytes4 (s0.left.lane k) Config.nativeOrder ++ bytes4 (s0.right.lane k) Config.nativeOrder)
  ∧ ∀ (s : State) (rest : List Event), s.events = .reset :: rest →
      ∃ t, step s = .next t ∧ t.busy = false ∧ t.done = false

/-- No frame for an iteration with both channels exhausted, and the first such iteration ends the run; two channels of N
words each give exactly N frames (41_interleaver.md R107). -/
def Obligations.NoFrameWhenBothAreExhausted : Prop :=
  (∀ (b : Build) (s t : State), t = (iterate b s).2 → t.left.exh = true → t.right.exh = true →
      t.out = s.out ∧ t.frames = s.frames)
  ∧ (∀ (b : Build) (s t : State), s.busy = true → t = engineStep b s →
      (t.busy = false ↔ (t.left.exh = true ∧ t.right.exh = true)))
  ∧ ∀ (b : Build) (s0 s : State) (N : Nat), s0.busy = false → exec .run s0 = .next s →
      s0.left.readable = N → s0.right.readable = N →
      (∀ k ≤ N, (engineSteps b k s).busy = true) ∧ (engineSteps b (N + 1) s).busy = false
        ∧ (engineSteps b (N + 1) s).out.length = s0.out.length + 8 * N
        ∧ (engineSteps b (N + 1) s).frames = BitVec.ofNat 32 N

/-- FRAMES counts modulo 2^32 with no saturation, and only RUN, CLEAR and reset set it to 0 (41_interleaver.md R109). -/
def Obligations.FramesCountsModulo : Prop :=
  (∀ (b : Build) (s t : State), iterate b s = (.continues, t) → t.frames.toNat = (s.frames.toNat + 1) % 2 ^ 32)
  ∧ (∀ (b : Build) (s t : State), iterate b s = (.terminated, t) → t.frames = s.frames)
  ∧ ∀ s t : State, step s = .next t →
      t.frames = s.frames ∨ t.frames = s.frames + 1#32
      ∨ t.frames = 0#32 ∧ ((∃ rest, s.events = .reset :: rest)
          ∨ ∃ tr rest i, s.events = .transaction tr :: rest ∧ decodeTransaction tr = .ok i
              ∧ (commandOf i = .run ∨ commandOf i = .clear))

/-- STEP takes the very iteration that an engine step takes (41_interleaver.md sections 1 and 2): a session driven by
STEP leaves what the engine would leave. -/
def Obligations.StepCommandAgreesWithTheEngine : Prop :=
  ∀ s : State, s.busy = false →
    ∃ t, exec .step s = .next t
      ∧ engineStep Config.build { s with busy := true, done := false } = { t with busy := !t.done }

/-- Host accesses during a run change nothing of it (60_exceptions.md R142, 20_memory.md R54): however transactions and at
most F engine turns are interleaved, the run stands where those engine steps alone would have put it.
That the interleaving is a list of events is the model's choice (log 3). -/
def Obligations.HostAccessesDoNotDisturbARun : Prop :=
  ∀ (s : State) (es : List Event), s.busy = true → (∀ e ∈ es, e.duringRun = true) →
      es.count .engine ≤ s.framesToCome →
    ∃ t, runSteps es.length { s with events := es } = .next t ∧ t.events = []
      ∧ SameRun (engineSteps Config.build (es.count .engine) s) t

/-! ### Control and registers -/

/-- NOP (42_control.md R120). -/
def Obligations.NopChangesNothing : Prop :=
  decodeCommand 0#32 = .nop
  ∧ (∀ s : State, exec .nop s = .next s ∧ exec (.wrCmd 0#32) s = .next s)
  ∧ ∀ v : Word, v.extractLsb' 0 4 = 0#4 → v.extractLsb' 4 28 ≠ 0#28 →
      decodeCommand v = .reservedCmd v ∧ ∀ s : State, exec (.wrCmd v) s = .next (raiseCmdError 1#2 s)

/-- CLEAR (42_control.md R121): status, counter and samples to 0 and nothing else; rejected while BUSY = 1; the only
command that clears ERR. -/
def Obligations.ClearResetsStatusCounterAndSamples : Prop :=
  decodeCommand 5#32 = .clear
  ∧ (∀ s : State, s.busy = true →
      exec .clear s = .next { s with err := if s.err = 0#2 then 2#2 else s.err })
  ∧ (∀ s : State, s.busy = false →
      exec .clear s = .next { s with
        left := { s.left with exh := false, sample := 0#32 }
        right := { s.right with exh := false, sample := 0#32 }
        done := false, err := 0#2, frames := 0#32 })
  ∧ ∀ (i : Instr) (s t : State), exec i s = .next t → s.err ≠ 0#2 → t.err = 0#2 → commandOf i = .clear

/-- WR CFG (42_control.md R122): the four fields and nothing else, reserved bits ignored, rejected while BUSY = 1. -/
def Obligations.WriteCfgSetsTheFourFields : Prop :=
  (∀ v : Word, decodeHeader 0x24#6 v = .ok (.wrCfg v))
  ∧ (∀ (v : Word) (s : State), s.busy = true →
      exec (.wrCfg v) s = .next { s with err := if s.err = 0#2 then 2#2 else s.err })
  ∧ (∀ (v : Word) (s : State), s.busy = false →
      exec (.wrCfg v) s = .next { s with
        left := { s.left with wsel := v.extractLsb' 0 2, le := v.getLsbD 2 }
        right := { s.right with wsel := v.extractLsb' 4 2, le := v.getLsbD 6 } })
  ∧ ∀ (v : Word) (s t : State), s.busy = false → exec (.wrCfg v) s = .next t → t.cfgWord = v &&& 0x00000077#32

/-- The register reads (42_control.md R123, R124): RD CFG returns `cfgword` of the fields and RD STATUS the status word,
with reserved bits 0; FRAMES and the samples are returned as they are (section 2); no other effect, at any time.
The list of returned words is the model's field (log 6). -/
def Obligations.ReadsReturnTheRegisters : Prop :=
  ∀ s : State,
    exec .rdCfg s = .next { s with returned := s.returned
      ++ [cfgword (s.left.wsel.toNat + 1) s.left.le (s.right.wsel.toNat + 1) s.right.le] }
    ∧ cfgword (s.left.wsel.toNat + 1) s.left.le (s.right.wsel.toNat + 1) s.right.le &&& 0xFFFFFF88#32 = 0#32
    ∧ exec .rdStatus s = .next { s with returned := s.returned
      ++ [bitWord s.busy ||| (bitWord s.done <<< 1) ||| (bitWord s.left.exh <<< 2) ||| (bitWord s.right.exh <<< 3)
          ||| (s.err.setWidth 32 <<< 4)] }
    ∧ s.statusWord &&& 0xFFFFFFC0#32 = 0#32
    ∧ exec .rdFrames s = .next { s with returned := s.returned ++ [s.frames] }
    ∧ exec .rdSampleL s = .next { s with returned := s.returned ++ [s.left.sample] }
    ∧ exec .rdSampleR s = .next { s with returned := s.returned ++ [s.right.sample] }

/-- The layouts of CFG and STATUS (30_encoding.md R63, R64, R65), bit by bit, and the examples of R64. -/
def Obligations.RegisterLayouts : Prop :=
  (∀ s : State,
    s.cfgWord.extractLsb' 0 2 = s.left.wsel ∧ s.cfgWord.getLsbD 2 = s.left.le ∧ s.cfgWord.getLsbD 3 = false
    ∧ s.cfgWord.extractLsb' 4 2 = s.right.wsel ∧ s.cfgWord.getLsbD 6 = s.right.le
    ∧ s.cfgWord.extractLsb' 7 25 = 0#25)
  ∧ (∀ s : State,
    s.statusWord.getLsbD 0 = s.busy ∧ s.statusWord.getLsbD 1 = s.done ∧ s.statusWord.getLsbD 2 = s.left.exh
    ∧ s.statusWord.getLsbD 3 = s.right.exh ∧ s.statusWord.extractLsb' 4 2 = s.err
    ∧ s.statusWord.extractLsb' 6 26 = 0#26)
  ∧ cfgword 2 true 2 true = 0x55#32 ∧ cfgword 3 false 1 true = 0x42#32
  ∧ cfgword 4 true 4 false = 0x37#32 ∧ cfgword 1 false 1 false = 0x00#32

/-- Ignored writes and zero reads (30_encoding.md R61).
The list of returned words is the model's field (log 6). -/
def Obligations.ReadOnlyAndReservedOffsets : Prop :=
  ∀ s : State,
    (∀ (o : BitVec 1) (data : Word), exec (.wrIgnored08_0C o data) s = .next s)
    ∧ (∀ (oo : BitVec 2) (data : Word), exec (.wrIgnored10_1C oo data) s = .next s)
    ∧ exec .rdCmd s = .next { s with returned := s.returned ++ [0#32] }
    ∧ ∀ o : BitVec 1, exec (.rdReserved o) s = .next { s with returned := s.returned ++ [0#32] }

/-- Side effects and idempotency (20_memory.md R50): reads have none; a CFG write is idempotent; a CMD write runs its
command, and two decodes of one channel read two consecutive words; a write to a read-only or reserved offset has no
effect.
The list of returned words is the model's field (log 6). -/
def Obligations.SideEffectsOfAccesses : Prop :=
  (∀ i ∈ [Instr.rdCmd, .rdCfg, .rdStatus, .rdFrames, .rdSampleL, .rdSampleR, .rdReserved 0#1, .rdReserved 1#1],
      ∀ s : State, ∃ v, exec i s = .next { s with returned := s.returned ++ [v] })
  ∧ (∀ (v : Word) (s t : State), exec (.wrCfg v) s = .next t → exec (.wrCfg v) t = .next t)
  ∧ (∀ (c : Chan) (s : State) (ch : Channel), s.channel c = ch → s.busy = false →
      ch.pos + 2 * ch.width ≤ ch.bytes.length →
      ∃ t u, exec c.decodeCmd s = .next t ∧ exec c.decodeCmd t = .next u
        ∧ (u.channel c).pos = ch.pos + 2 * ch.width
        ∧ (t.channel c).sample.toInt = rawValue ch.le (memRead ch.bytes ch.pos ch.width)
        ∧ (u.channel c).sample.toInt = rawValue ch.le (memRead ch.bytes (ch.pos + ch.width) ch.width))
  ∧ (∀ (v : Word) (s : State), exec (.wrCmd v) s = exec (decodeCommand v) s)
  ∧ (∀ (o : BitVec 1) (data : Word) (s : State), exec (.wrIgnored08_0C o data) s = .next s)
  ∧ ∀ (oo : BitVec 2) (data : Word) (s : State), exec (.wrIgnored10_1C oo data) s = .next s

/-! ### Frames -/

/-- What an instruction leaves of the streams (10_state.md R31, R32; 41_interleaver.md R101): it stores to no input
stream, and to OUT only through STEP, and then only the 8 bytes from OUT.len up. -/
def Obligations.InstructionsLeaveTheStreams : Prop :=
  ∀ (i : Instr) (s t : State), exec i s = .next t →
    (∀ (c : Chan) (a : Nat), memByte (t.channel c).bytes a = memByte (s.channel c).bytes a)
    ∧ (commandOf i ≠ .step → ∀ a, memByte t.out a = memByte s.out a)
    ∧ ∀ a, (a < s.out.length ∨ s.out.length + 8 ≤ a) → memByte t.out a = memByte s.out a

/-- Which register an instruction may change (10_state.md R21 to R28, and R31 for the positions): CFG only WR CFG; BUSY
only RUN; DONE and FRAMES only STEP, RUN and CLEAR; a channel's EXH and SAMPLE only its DECODE, STEP and CLEAR; its
position only its DECODE and STEP; ERR only a command or a CFG write. That only a read adds to the returned words
(log 6), and no instruction moves the draws (log 2) or the events (log 3), is about the model's own fields. -/
def Obligations.InstructionsLeaveTheRegisters : Prop :=
  ∀ (i : Instr) (s t : State), exec i s = .next t →
    ((∀ v, i ≠ .wrCfg v) → t.left.wsel = s.left.wsel ∧ t.left.le = s.left.le
      ∧ t.right.wsel = s.right.wsel ∧ t.right.le = s.right.le)
    ∧ (commandOf i ≠ .run → t.busy = s.busy)
    ∧ (commandOf i ∉ [Instr.step, .run, .clear] → t.done = s.done ∧ t.frames = s.frames)
    ∧ (commandOf i ∉ [Instr.decodeL, .step, .clear] → t.left.exh = s.left.exh ∧ t.left.sample = s.left.sample)
    ∧ (commandOf i ∉ [Instr.decodeR, .step, .clear] → t.right.exh = s.right.exh ∧ t.right.sample = s.right.sample)
    ∧ (commandOf i ∉ [Instr.decodeL, .step] → t.left.pos = s.left.pos)
    ∧ (commandOf i ∉ [Instr.decodeR, .step] → t.right.pos = s.right.pos)
    ∧ ((∀ v, i ≠ .wrCmd v) → (∀ v, i ≠ .wrCfg v) → (∀ v, i ≠ .reservedCmd v) →
        i ∉ [Instr.decodeL, .decodeR, .step, .run, .clear] → t.err = s.err)
    ∧ (i ∉ [Instr.rdCmd, .rdCfg, .rdStatus, .rdFrames, .rdSampleL, .rdSampleR, .rdReserved 0#1, .rdReserved 1#1] →
        t.returned = s.returned)
    ∧ t.draws = s.draws ∧ t.events = s.events

/-- A step in which the host hands over no streams leaves the input streams as they are, moves a position only forward and
not past the end; reset moves none (10_state.md R31; 70_reset_and_hazards.md R160).
That streams are handed over by an event is the model's choice (log 8). -/
def Obligations.PositionsOnlyMoveForward : Prop :=
  (∀ s t : State, step s = .next t → (∀ e rest, s.events = e :: rest → e.isSupply = false) → ∀ c,
    (t.channel c).bytes = (s.channel c).bytes ∧ (s.channel c).pos ≤ (t.channel c).pos
    ∧ ((s.channel c).pos ≤ (s.channel c).bytes.length → (t.channel c).pos ≤ (t.channel c).bytes.length))
  ∧ ∀ (s t : State) (rest : List Event), s.events = .reset :: rest → step s = .next t →
      ∀ c, (t.channel c).pos = (s.channel c).pos

/-- OUT is only appended to, 8 bytes at a time (10_state.md R32; 41_interleaver.md R101).
That streams are handed over by an event is the model's choice (log 8). -/
def Obligations.OutputIsOnlyAppendedTo : Prop :=
  ∀ s t : State, step s = .next t → (∀ e rest, s.events = e :: rest → e.isSupply = false) →
    t.out = s.out
    ∨ ∃ l r : Word, t.out = s.out ++ (bytes4 l Config.nativeOrder ++ bytes4 r Config.nativeOrder)
        ∧ t.out.length = s.out.length + 8

/-- "POS[c] is not readable through the register port" (10_state.md R31): what an instruction returns to the host does not
depend on the streams, their positions or OUT.
The list of returned words is the model's field (log 6). -/
def Obligations.StreamsAreNotReadableThroughThePort : Prop :=
  ∀ (i : Instr) (s t s' t' : State) (lb rb out : Memory) (lp rp : Nat),
    s' = { s with left := { s.left with bytes := lb, pos := lp }
                  right := { s.right with bytes := rb, pos := rp }, out := out } →
    exec i s = .next t → exec i s' = .next t' → t'.returned = t.returned

/-! ### Output bytes, reset, supply -/

/-- The bytes of an output word for each NATIVE_ORDER, with the example of 30_encoding.md R74. -/
def Obligations.OutputWordBytes : Prop :=
  (∀ (v : Word) (b3 b2 b1 b0 : Byte),
      v.toNat = b3.toNat * 2 ^ 24 + b2.toNat * 2 ^ 16 + b1.toNat * 2 ^ 8 + b0.toNat →
    bytes4 v .le = [b0, b1, b2, b3] ∧ bytes4 v .be = [b3, b2, b1, b0])
  ∧ bytes4 0xFFFF8000#32 .le = [0x00#8, 0x80#8, 0xFF#8, 0xFF#8]
  ∧ bytes4 0xFFFF8000#32 .be = [0xFF#8, 0xFF#8, 0x80#8, 0x00#8]

/-- Reset (70_reset_and_hazards.md R160), in any state, a run in progress included: every register to its reset value, the
streams as they were, and the engine without a further step.
That the returned words, the coming events and the draws are kept is the model's choice (log 17). -/
def Obligations.ResetClearsTheRegisters : Prop :=
  ∀ (s : State) (rest : List Event), s.events = .reset :: rest →
    ∃ t, step s = .next t
      ∧ t = { s with
          left := { s.left with wsel := 0#2, le := false, exh := false, sample := 0#32 }
          right := { s.right with wsel := 0#2, le := false, exh := false, sample := 0#32 }
          busy := false, done := false, err := 0#2, frames := 0#32, events := rest }
      ∧ ∀ b : Build, engineTurn b t = t

/-- The machine right after reset reads as 70_reset_and_hazards.md section 1 says, and is idle (R161). That no stream is
supplied and nothing is pending there is the model's choice (log 7), and no clause rests on it. -/
def Obligations.ResetStateReadsZero : Prop :=
  (∀ i ∈ [Instr.rdCmd, .rdCfg, .rdStatus, .rdFrames, .rdSampleL, .rdSampleR, .rdReserved 0#1, .rdReserved 1#1],
    exec i State.reset = .next { State.reset with returned := State.reset.returned ++ [0#32] })
  ∧ ∀ b : Build, engineTurn b State.reset = State.reset

/-- The supply of streams, the model's choice of how a session's streams come to be there (log 8; 70_reset_and_hazards.md
R162, R164): refused while BUSY = 1 and where a position lies past the end, otherwise the streams and nothing else. -/
def Obligations.StreamsAreSuppliedOnlyWhenIdle : Prop :=
  ∀ (s : State) (streams : Streams) (rest : List Event), s.events = .supply streams :: rest →
    (s.busy = true → step s = .refused .streamsChangedWhileBusy)
    ∧ (s.busy = false →
        (streams.leftBytes.length < streams.leftPos ∨ streams.rightBytes.length < streams.rightPos) →
        step s = .refused .positionPastEnd)
    ∧ (s.busy = false → streams.leftPos ≤ streams.leftBytes.length →
        streams.rightPos ≤ streams.rightBytes.length →
        step s = .next { s with
          left := { s.left with bytes := streams.leftBytes, pos := streams.leftPos }
          right := { s.right with bytes := streams.rightBytes, pos := streams.rightPos }
          out := streams.out, events := rest })

/-! ### Invariants -/

/-- Every step keeps the invariant: positions within their streams, ERR never 3, no DONE during a run. -/
def Obligations.StepKeepsTheMachineInvariant : Prop :=
  ∀ s t : State, s.Inv → step s = .next t → t.Inv

/-- Every step but a supply of new streams keeps the session's invariant: an exhausted channel is at its end, and DONE says
that both are exhausted (10_state.md R23, R24). -/
def Obligations.StepKeepsTheSessionInvariant : Prop :=
  ∀ s t : State, s.SessionInv → (∀ e rest, s.events = e :: rest → e.isSupply = false) → step s = .next t → t.SessionInv

/-- Both invariants hold right after reset. -/
def Obligations.ResetMeetsTheInvariants : Prop :=
  State.reset.Inv ∧ State.reset.SessionInv
end

