-- ==== Sys2Proof/Laws/State.lean ====
section
/-! SUPPORT. One lemma per field per update of the state, each by rfl, so that no proof unfolds a record. -/

namespace Sys2Proof.Machine

/-! ### `setChannel` -/

@[simp] theorem State.channel_left (s : State) : s.channel .left = s.left := rfl
@[simp] theorem State.channel_right (s : State) : s.channel .right = s.right := rfl
@[simp] theorem State.setChannel_left_left (s : State) (ch : Channel) : (s.setChannel .left ch).left = ch := rfl
@[simp] theorem State.setChannel_left_right (s : State) (ch : Channel) : (s.setChannel .left ch).right = s.right := rfl
@[simp] theorem State.setChannel_right_left (s : State) (ch : Channel) : (s.setChannel .right ch).left = s.left := rfl
@[simp] theorem State.setChannel_right_right (s : State) (ch : Channel) : (s.setChannel .right ch).right = ch := rfl

variable (s : State) (c : Chan) (ch : Channel)

@[simp] theorem State.setChannel_busy : (s.setChannel c ch).busy = s.busy := by cases c <;> rfl
@[simp] theorem State.setChannel_done : (s.setChannel c ch).done = s.done := by cases c <;> rfl
@[simp] theorem State.setChannel_err : (s.setChannel c ch).err = s.err := by cases c <;> rfl
@[simp] theorem State.setChannel_frames : (s.setChannel c ch).frames = s.frames := by cases c <;> rfl
@[simp] theorem State.setChannel_out : (s.setChannel c ch).out = s.out := by cases c <;> rfl
@[simp] theorem State.setChannel_returned : (s.setChannel c ch).returned = s.returned := by cases c <;> rfl
@[simp] theorem State.setChannel_draws : (s.setChannel c ch).draws = s.draws := by cases c <;> rfl
@[simp] theorem State.setChannel_events : (s.setChannel c ch).events = s.events := by cases c <;> rfl
@[simp] theorem State.setChannel_channel : (s.setChannel c ch).channel c = ch := by cases c <;> rfl
@[simp] theorem State.setChannel_other : (s.setChannel c ch).channel c.other = s.channel c.other := by
  cases c <;> rfl

/-! ### `withEvents` -/

variable (es : List Event)

@[simp] theorem State.withEvents_left : (s.withEvents es).left = s.left := rfl
@[simp] theorem State.withEvents_right : (s.withEvents es).right = s.right := rfl
@[simp] theorem State.withEvents_busy : (s.withEvents es).busy = s.busy := rfl
@[simp] theorem State.withEvents_done : (s.withEvents es).done = s.done := rfl
@[simp] theorem State.withEvents_err : (s.withEvents es).err = s.err := rfl
@[simp] theorem State.withEvents_frames : (s.withEvents es).frames = s.frames := rfl
@[simp] theorem State.withEvents_out : (s.withEvents es).out = s.out := rfl
@[simp] theorem State.withEvents_returned : (s.withEvents es).returned = s.returned := rfl
@[simp] theorem State.withEvents_draws : (s.withEvents es).draws = s.draws := rfl
@[simp] theorem State.withEvents_events : (s.withEvents es).events = es := rfl
@[simp] theorem State.withEvents_withEvents (es' : List Event) :
    (s.withEvents es).withEvents es' = s.withEvents es' := rfl
@[simp] theorem State.withEvents_self : s.withEvents s.events = s := rfl

/-! ### `resetBlock`, `clearStatus`, `startRun`, `writeCfg` -/

@[simp] theorem resetBlock_left : (resetBlock s).left = s.left.cleared := rfl
@[simp] theorem resetBlock_right : (resetBlock s).right = s.right.cleared := rfl
@[simp] theorem resetBlock_busy : (resetBlock s).busy = false := rfl
@[simp] theorem resetBlock_done : (resetBlock s).done = false := rfl
@[simp] theorem resetBlock_err : (resetBlock s).err = 0#2 := rfl
@[simp] theorem resetBlock_frames : (resetBlock s).frames = 0#32 := rfl
@[simp] theorem resetBlock_out : (resetBlock s).out = s.out := rfl
@[simp] theorem resetBlock_returned : (resetBlock s).returned = s.returned := rfl
@[simp] theorem resetBlock_events : (resetBlock s).events = s.events := rfl

@[simp] theorem Channel.cleared_exh : ch.cleared.exh = false := rfl
@[simp] theorem Channel.cleared_sample : ch.cleared.sample = 0#32 := rfl
@[simp] theorem Channel.cleared_bytes : ch.cleared.bytes = ch.bytes := rfl
@[simp] theorem Channel.cleared_pos : ch.cleared.pos = ch.pos := rfl

@[simp] theorem clearStatus_busy : (clearStatus s).busy = s.busy := rfl
@[simp] theorem clearStatus_done : (clearStatus s).done = false := rfl
@[simp] theorem clearStatus_err : (clearStatus s).err = 0#2 := rfl
@[simp] theorem clearStatus_frames : (clearStatus s).frames = 0#32 := rfl
@[simp] theorem clearStatus_out : (clearStatus s).out = s.out := rfl
@[simp] theorem clearStatus_returned : (clearStatus s).returned = s.returned := rfl
@[simp] theorem clearStatus_left : (clearStatus s).left = { s.left with exh := false, sample := 0#32 } := rfl
@[simp] theorem clearStatus_right : (clearStatus s).right = { s.right with exh := false, sample := 0#32 } := rfl

@[simp] theorem startRun_left : (startRun s).left = s.left := rfl
@[simp] theorem startRun_right : (startRun s).right = s.right := rfl
@[simp] theorem startRun_busy : (startRun s).busy = true := rfl
@[simp] theorem startRun_done : (startRun s).done = false := rfl
@[simp] theorem startRun_err : (startRun s).err = s.err := rfl
@[simp] theorem startRun_frames : (startRun s).frames = 0#32 := rfl
@[simp] theorem startRun_out : (startRun s).out = s.out := rfl
@[simp] theorem startRun_returned : (startRun s).returned = s.returned := rfl

variable (v : Word)

@[simp] theorem writeCfg_left : (writeCfg v s).left = { s.left with wsel := cfgLWsel v, le := cfgLLe v } := rfl
@[simp] theorem writeCfg_right : (writeCfg v s).right = { s.right with wsel := cfgRWsel v, le := cfgRLe v } := rfl
@[simp] theorem writeCfg_busy : (writeCfg v s).busy = s.busy := rfl
@[simp] theorem writeCfg_done : (writeCfg v s).done = s.done := rfl
@[simp] theorem writeCfg_err : (writeCfg v s).err = s.err := rfl
@[simp] theorem writeCfg_frames : (writeCfg v s).frames = s.frames := rfl
@[simp] theorem writeCfg_out : (writeCfg v s).out = s.out := rfl
@[simp] theorem writeCfg_returned : (writeCfg v s).returned = s.returned := rfl

/-! ### `countFrame` and the frame writer -/

variable (b : Build) (l r : Word)

@[simp] theorem countFrame_left : (countFrame s).left = s.left := rfl
@[simp] theorem countFrame_right : (countFrame s).right = s.right := rfl
@[simp] theorem countFrame_busy : (countFrame s).busy = s.busy := rfl
@[simp] theorem countFrame_done : (countFrame s).done = s.done := rfl
@[simp] theorem countFrame_err : (countFrame s).err = s.err := rfl
@[simp] theorem countFrame_frames : (countFrame s).frames = s.frames + 1 := rfl
@[simp] theorem countFrame_out : (countFrame s).out = s.out := rfl
@[simp] theorem countFrame_returned : (countFrame s).returned = s.returned := rfl
@[simp] theorem countFrame_draws : (countFrame s).draws = s.draws := rfl
@[simp] theorem countFrame_events : (countFrame s).events = s.events := rfl

@[simp] theorem writeFrame_left : (writeFrame b l r s).left = s.left := rfl
@[simp] theorem writeFrame_right : (writeFrame b l r s).right = s.right := rfl
@[simp] theorem writeFrame_busy : (writeFrame b l r s).busy = s.busy := rfl
@[simp] theorem writeFrame_done : (writeFrame b l r s).done = s.done := rfl
@[simp] theorem writeFrame_err : (writeFrame b l r s).err = s.err := rfl
@[simp] theorem writeFrame_frames : (writeFrame b l r s).frames = s.frames := rfl
@[simp] theorem writeFrame_returned : (writeFrame b l r s).returned = s.returned := rfl
@[simp] theorem writeFrame_draws : (writeFrame b l r s).draws = s.draws := rfl
@[simp] theorem writeFrame_events : (writeFrame b l r s).events = s.events := rfl

/-! ### `raiseCmdError` -/

variable (code : BitVec 2)

/-- Everything `raise CmdError` can change is ERR. -/
theorem raiseCmdError_eq :
    raiseCmdError code s = { s with err := if s.err = 0#2 then code else s.err } := by
  unfold raiseCmdError errNone
  split <;> simp_all

@[simp] theorem raiseCmdError_left : (raiseCmdError code s).left = s.left := by rw [raiseCmdError_eq]
@[simp] theorem raiseCmdError_right : (raiseCmdError code s).right = s.right := by rw [raiseCmdError_eq]
@[simp] theorem raiseCmdError_busy : (raiseCmdError code s).busy = s.busy := by rw [raiseCmdError_eq]
@[simp] theorem raiseCmdError_done : (raiseCmdError code s).done = s.done := by rw [raiseCmdError_eq]
@[simp] theorem raiseCmdError_frames : (raiseCmdError code s).frames = s.frames := by rw [raiseCmdError_eq]
@[simp] theorem raiseCmdError_out : (raiseCmdError code s).out = s.out := by rw [raiseCmdError_eq]
@[simp] theorem raiseCmdError_returned : (raiseCmdError code s).returned = s.returned := by rw [raiseCmdError_eq]
@[simp] theorem raiseCmdError_draws : (raiseCmdError code s).draws = s.draws := by rw [raiseCmdError_eq]
@[simp] theorem raiseCmdError_events : (raiseCmdError code s).events = s.events := by rw [raiseCmdError_eq]
@[simp] theorem raiseCmdError_err :
    (raiseCmdError code s).err = if s.err = 0#2 then code else s.err := by rw [raiseCmdError_eq]

end Sys2Proof.Machine
end

