-- ==== Sys2Proof/Laws/Decode.lean ====
section
/-! SUPPORT. Small facts about the decoder: its fields' values, one by one. -/

namespace Sys2Proof

/-- The values of an OP field. -/
theorem op_values : ∀ op : BitVec 4, op ∈ [0#4, 1#4, 2#4, 3#4, 4#4, 5#4, 6#4, 7#4, 8#4, 9#4, 10#4, 11#4,
    12#4, 13#4, 14#4, 15#4] := by decide

/-- The values of a header. -/
theorem header_values : ∀ h : Header, h ∈ (List.range 64).map (BitVec.ofNat 6) := by decide

/-- The values of the offset fields of the ignored writes and the reserved reads. -/
theorem bit_values : ∀ o : BitVec 1, o = 0#1 ∨ o = 1#1 := by decide

theorem two_bit_values : ∀ oo : BitVec 2, oo = 0#2 ∨ oo = 1#2 ∨ oo = 2#2 ∨ oo = 3#2 := by decide

/-- A CMD word with RSV = 0 is its OP field. -/
theorem word_of_cmdRsv_zero {word : Word} (h : cmdRsv word = 0#28) : word = (cmdOp word).setWidth 32 := by
  apply BitVec.eq_of_getLsbD_eq
  intro i hi
  simp only [cmdOp, BitVec.getLsbD_setWidth, BitVec.getLsbD_extractLsb']
  by_cases h4 : i < 4
  · simp [h4, hi]
  · have hz : (cmdRsv word).getLsbD (i - 4) = false := by rw [h]; simp
    simp only [cmdRsv, BitVec.getLsbD_extractLsb', show 4 + (i - 4) = i by omega,
      show i - 4 < 28 by omega, decide_true, Bool.true_and] at hz
    simp [h4, hz]

/-- The decoder's answer for a CMD word is a command, never a bus operation. -/
theorem decodeCommand_mem (word : Word) :
    decodeCommand word ∈ [.nop, .decodeL, .decodeR, .step, .run, .clear, .reservedCmd word] := by
  unfold decodeCommand
  split
  · simp
  · split <;> simp

end Sys2Proof
end

