-- ==== Sys2Proof/Laws/Memory.lean ====
section
/-! SUPPORT. The streams: reads, appends and the canonical form of a stream's address and byte pairs. -/

namespace Sys2Proof.Machine

/-! ### Reads -/

theorem memRead_length (m : Memory) (a n : Nat) : (memRead m a n).length = min n (m.length - a) := by
  simp [memRead]

/-- A read within the stream gets all it asked for. -/
theorem memRead_length_of_le {m : Memory} {a n : Nat} (h : a + n ≤ m.length) : (memRead m a n).length = n := by
  rw [memRead_length]; omega

/-- A read of what an append has just stored. -/
theorem memRead_append_right (m bs : Memory) : memRead (m ++ bs) m.length bs.length = bs := by
  simp [memRead]

/-- A read that ends before the append does not see it. -/
theorem memRead_append_left {m bs : Memory} {a n : Nat} (h : a + n ≤ m.length) :
    memRead (m ++ bs) a n = memRead m a n := by
  unfold memRead
  rw [List.drop_append_of_le_length (by omega), List.take_append_of_le_length (by simp; omega)]

/-! ### Writes -/

/-- The only form of MemWrite the block uses appends (00_scope.md R15). -/
@[simp] theorem memWrite_at_end (m : Memory) (bs : List Byte) : memWrite m m.length bs = m ++ bs := by
  simp [memWrite]

/-- A byte below the append is unchanged. -/
theorem memByte_append {m bs : Memory} {a : Nat} (h : a < m.length) : memByte (m ++ bs) a = memByte m a := by
  simp [memByte, List.getElem?_append_left h]

/-! ### The canonical form -/

theorem Memory.cellsFrom_bounds (m : Memory) (at0 : Nat) :
    ∀ c ∈ m.cellsFrom at0, at0 ≤ c.1 ∧ c.1 < at0 + m.length := by
  induction m generalizing at0 with
  | nil => simp [Memory.cellsFrom]
  | cons b bs ih =>
    intro c hc
    simp only [Memory.cellsFrom, List.mem_cons] at hc
    obtain rfl | hc := hc
    · simp
    · have := ih (at0 + 1) c hc
      simp only [List.length_cons]
      omega

theorem Memory.cellsFrom_rising (m : Memory) (at0 : Nat) :
    (m.cellsFrom at0).Pairwise (fun a b => a.1 < b.1) := by
  induction m generalizing at0 with
  | nil => exact List.Pairwise.nil
  | cons b bs ih =>
    refine List.Pairwise.cons (fun c hc => ?_) (ih _)
    have := Memory.cellsFrom_bounds bs (at0 + 1) c hc
    show at0 < c.1
    omega

/-- Every stream is in canonical form, so every operation on streams keeps it. -/
theorem Memory.wf_all (m : Memory) : m.wf :=
  ⟨m.cellsFrom_rising 0, fun c hc => by have := m.cellsFrom_bounds 0 c hc; omega⟩

theorem memWrite_wf (m : Memory) (a : Nat) (bs : List Byte) : (memWrite m a bs).wf := Memory.wf_all _

theorem State.reset_streams_wf :
    State.reset.left.bytes.wf ∧ State.reset.right.bytes.wf ∧ State.reset.out.wf :=
  ⟨Memory.wf_all _, Memory.wf_all _, Memory.wf_all _⟩

/-- The canonical form of a stream determines it. -/
theorem Memory.cellsFrom_values (m : Memory) (at0 : Nat) : (m.cellsFrom at0).map Prod.snd = m := by
  induction m generalizing at0 with
  | nil => rfl
  | cons b bs ih => simp [Memory.cellsFrom, ih]

end Sys2Proof.Machine
end

