-- ==== Sys2Proof/Laws/Operands.lean ====
section
/-! SUPPORT. Widths, byte orders and the bytes of a word. -/

namespace Sys2Proof.Machine

theorem Channel.width_pos (ch : Channel) : 1 ≤ ch.width := Nat.le_add_left 1 _

theorem Channel.width_le (ch : Channel) : ch.width ≤ 4 := by
  have := ch.wsel.isLt
  simp only [Channel.width]
  omega

@[simp] theorem bytesLsbFirst_length (v : Word) : (bytesLsbFirst v).length = 4 := rfl

@[simp] theorem bytes4_length (v : Word) (o : ByteOrder) : (bytes4 v o).length = 4 := by cases o <;> rfl

@[simp] theorem frameBytes_length (o : ByteOrder) (l r : Word) : (frameBytes o l r).length = 8 := by
  simp [frameBytes]

@[simp] theorem normalise_length (le : Bool) (raw : List Byte) : (normalise le raw).length = raw.length := by
  cases le <;> simp [normalise]

/-- Normalising twice gives the bytes back. -/
@[simp] theorem normalise_normalise (le : Bool) (raw : List Byte) : normalise le (normalise le raw) = raw := by
  cases le <;> simp [normalise]

/-- One byte has one order (20_memory.md R42). -/
theorem normalise_one (le : Bool) (b : Byte) : normalise le [b] = [b] := by cases le <;> rfl

/-- Assembly from byte `i` is assembly from byte 0, moved up by `i` bytes. -/
theorem assembleFrom_shift (i : Nat) (bs : List Byte) :
    assembleFrom i bs = assembleFrom 0 bs <<< (8 * i) := by
  induction bs generalizing i with
  | nil => simp [assembleFrom]
  | cons b bs ih =>
    rw [assembleFrom, assembleFrom, ih (i + 1), ih (0 + 1), BitVec.shiftLeft_or_distrib,
      ← BitVec.shiftLeft_add, ← BitVec.shiftLeft_add]
    congr 2
    · simp
    · omega

/-- This hardware fills with 0 (00_scope.md R8). -/
@[simp] theorem Config.build_fillMode : Config.build.fillMode = .zero := rfl

end Sys2Proof.Machine
end

