-- ==== Sys2Proof/Laws/WordDecoder.lean ====
section
/-! SUPPORT. Everything DecodeWord can do (40_word_decoder.md R82), said once. -/

namespace Sys2Proof.Machine

@[simp] theorem streamAdvance_bytes (ch : Channel) (n : Nat) : (streamAdvance ch n).bytes = ch.bytes := rfl

/-- A read is short exactly when fewer than W bytes are left. -/
theorem Channel.readsShort_iff (ch : Channel) : ch.readsShort = true ↔ ch.remaining < ch.width := by
  simp only [Channel.readsShort, shortRead, streamBytes, memRead_length, Channel.remaining,
    decide_eq_true_eq]
  omega

theorem Channel.not_readsShort_iff (ch : Channel) : ch.readsShort = false ↔ ch.width ≤ ch.remaining := by
  rw [← Bool.not_eq_true, Channel.readsShort_iff]
  omega

/-- A full read: W bytes consumed, and their sample. -/
theorem decodeChannel_full (fill : Word) {ch : Channel} (h : ch.readsShort = false) :
    decodeChannel fill ch =
      { ch with pos := ch.pos + ch.width, exh := false, sample := sampleOf ch.width ch.le ch.nextRaw } := by
  have hl : (streamBytes ch ch.width).length = ch.width := by
    have := (Channel.not_readsShort_iff ch).1 h
    simp only [streamBytes, memRead_length, Channel.remaining] at *
    omega
  simp only [decodeChannel, h, Bool.false_eq_true, if_false, streamAdvance, hl]
  rfl

/-- A short read: what is left is consumed, and the fill value taken. -/
theorem decodeChannel_short (fill : Word) {ch : Channel} (h : ch.readsShort = true) :
    decodeChannel fill ch = { ch with pos := ch.pos + ch.remaining, exh := true, sample := fill } := by
  have hl : (streamBytes ch ch.width).length = ch.remaining := by
    have := (Channel.readsShort_iff ch).1 h
    simp only [streamBytes, memRead_length, Channel.remaining] at *
    omega
  simp [decodeChannel, h, streamAdvance, hl]

@[simp] theorem decodeChannel_exh (fill : Word) (ch : Channel) : (decodeChannel fill ch).exh = ch.readsShort := by
  cases h : ch.readsShort
  · rw [decodeChannel_full fill h]
  · rw [decodeChannel_short fill h]

@[simp] theorem decodeChannel_bytes (fill : Word) (ch : Channel) : (decodeChannel fill ch).bytes = ch.bytes := by
  simp only [decodeChannel]; split <;> rfl

@[simp] theorem decodeChannel_wsel (fill : Word) (ch : Channel) : (decodeChannel fill ch).wsel = ch.wsel := by
  simp only [decodeChannel]; split <;> rfl

@[simp] theorem decodeChannel_le (fill : Word) (ch : Channel) : (decodeChannel fill ch).le = ch.le := by
  simp only [decodeChannel]; split <;> rfl

@[simp] theorem decodeChannel_width (fill : Word) (ch : Channel) : (decodeChannel fill ch).width = ch.width := by
  simp [Channel.width]

/-- The position moves by a whole word, or to the end. -/
theorem decodeChannel_pos (fill : Word) (ch : Channel) :
    (decodeChannel fill ch).pos = ch.pos + min ch.width ch.remaining := by
  cases h : ch.readsShort
  · rw [decodeChannel_full fill h]
    have := (Channel.not_readsShort_iff ch).1 h
    show ch.pos + ch.width = _
    omega
  · rw [decodeChannel_short fill h]
    have := (Channel.readsShort_iff ch).1 h
    show ch.pos + ch.remaining = _
    omega

/-! ### `decodeWord` on the state -/

variable (b : Build) (c : Chan) (s : State)

@[simp] theorem decodeWord_busy : (decodeWord b c s).busy = s.busy := by simp [decodeWord]
@[simp] theorem decodeWord_done : (decodeWord b c s).done = s.done := by simp [decodeWord]
@[simp] theorem decodeWord_err : (decodeWord b c s).err = s.err := by simp [decodeWord]
@[simp] theorem decodeWord_frames : (decodeWord b c s).frames = s.frames := by simp [decodeWord]
@[simp] theorem decodeWord_out : (decodeWord b c s).out = s.out := by simp [decodeWord]
@[simp] theorem decodeWord_returned : (decodeWord b c s).returned = s.returned := by simp [decodeWord]
@[simp] theorem decodeWord_events : (decodeWord b c s).events = s.events := by simp [decodeWord]
@[simp] theorem decodeWord_left_left :
    (decodeWord b .left s).left = decodeChannel (fillValue b s.draws) s.left := rfl
@[simp] theorem decodeWord_left_right : (decodeWord b .left s).right = s.right := rfl
@[simp] theorem decodeWord_right_left : (decodeWord b .right s).left = s.left := rfl
@[simp] theorem decodeWord_right_right :
    (decodeWord b .right s).right = decodeChannel (fillValue b s.draws) s.right := rfl

@[simp] theorem fillValue_build (draws : Nat) : fillValue Config.build draws = 0#32 := rfl
@[simp] theorem drawsAfter_build (draws : Nat) : drawsAfter Config.build draws = draws := rfl

/-- On this hardware no draw is taken. -/
theorem decodeWord_build : decodeWord Config.build c s = s.setChannel c (decodeChannel 0#32 (s.channel c)) := by
  unfold decodeWord
  rw [fillValue_build, drawsAfter_build, ite_self]
  cases c <;> rfl

end Sys2Proof.Machine
end

