-- ==== Sys2Proof/Laws/Interleaver.lean ====
section
/-! SUPPORT. Everything ITERATE, STEP and the engine can do (41_interleaver.md R100 to R105), said once. -/

namespace Sys2Proof.Machine

variable (b : Build) (s : State)

@[simp] theorem decodeBoth_busy : (decodeBoth b s).busy = s.busy := by simp [decodeBoth]
@[simp] theorem decodeBoth_done : (decodeBoth b s).done = s.done := by simp [decodeBoth]
@[simp] theorem decodeBoth_err : (decodeBoth b s).err = s.err := by simp [decodeBoth]
@[simp] theorem decodeBoth_frames : (decodeBoth b s).frames = s.frames := by simp [decodeBoth]
@[simp] theorem decodeBoth_out : (decodeBoth b s).out = s.out := by simp [decodeBoth]
@[simp] theorem decodeBoth_returned : (decodeBoth b s).returned = s.returned := by simp [decodeBoth]
@[simp] theorem decodeBoth_events : (decodeBoth b s).events = s.events := by simp [decodeBoth]
@[simp] theorem decodeBoth_left :
    (decodeBoth b s).left = decodeChannel (fillValue b s.draws) s.left := rfl
@[simp] theorem decodeBoth_right :
    (decodeBoth b s).right = decodeChannel (fillValue b (decodeWord b .left s).draws) s.right := rfl

@[simp] theorem decodeBoth_bothExhausted :
    (decodeBoth b s).bothExhausted = (s.left.readsShort && s.right.readsShort) := by
  simp [State.bothExhausted]

/-- The frame writer appends the frame's 8 bytes (41_interleaver.md R101). -/
@[simp] theorem writeFrame_out (l r : Word) :
    (writeFrame b l r s).out = s.out ++ frameBytes b.nativeOrder l r := by
  simp only [writeFrame, writeWord, frameBytes, memWrite_at_end, List.append_assoc]

/-- Writing and counting a frame changes OUT and FRAMES. -/
theorem countFrame_writeFrame (l r : Word) :
    countFrame (writeFrame b l r s) =
      { s with out := s.out ++ frameBytes b.nativeOrder l r, frames := s.frames + 1 } := by
  simp only [countFrame, writeFrame, writeWord, memWrite_at_end, List.append_assoc, frameBytes]

/-- ITERATE when both reads are short. -/
theorem iterate_terminated (h : (s.left.readsShort && s.right.readsShort) = true) :
    iterate b s = (.terminated, decodeBoth b s) := by
  simp [iterate, h]

/-- ITERATE when a read is full. -/
theorem iterate_continues (h : (s.left.readsShort && s.right.readsShort) = false) :
    iterate b s =
      (.continues, countFrame (writeFrame b (decodeBoth b s).left.sample (decodeBoth b s).right.sample
        (decodeBoth b s))) := by
  simp only [iterate, decodeBoth_bothExhausted, h]
  rfl

/-- The engine's step: it ends the run, or writes a frame and goes on. -/
theorem engineStep_cases :
    ((s.left.readsShort && s.right.readsShort) = true
      ∧ engineStep b s = { decodeBoth b s with busy := false, done := true })
    ∨ ((s.left.readsShort && s.right.readsShort) = false
      ∧ engineStep b s = countFrame (writeFrame b (decodeBoth b s).left.sample (decodeBoth b s).right.sample
          (decodeBoth b s))) := by
  cases h : (s.left.readsShort && s.right.readsShort)
  · exact .inr ⟨rfl, by simp [engineStep, iterate_continues b s h]⟩
  · exact .inl ⟨rfl, by simp [engineStep, iterate_terminated b s h]⟩

/-- STEP's body: the engine's iteration with DONE as its result. -/
theorem stepOnce_cases :
    ((s.left.readsShort && s.right.readsShort) = true
      ∧ stepOnce b s = { decodeBoth b s with done := true })
    ∨ ((s.left.readsShort && s.right.readsShort) = false
      ∧ stepOnce b s = { countFrame (writeFrame b (decodeBoth b s).left.sample (decodeBoth b s).right.sample
          (decodeBoth b s)) with done := false }) := by
  cases h : (s.left.readsShort && s.right.readsShort)
  · exact .inr ⟨rfl, by simp [stepOnce, iterate_continues b s h]⟩
  · exact .inl ⟨rfl, by simp [stepOnce, iterate_terminated b s h]⟩

/-- Both channels after the engine's step. -/
@[simp] theorem engineStep_left : (engineStep b s).left = decodeChannel (fillValue b s.draws) s.left := by
  obtain ⟨-, h⟩ | ⟨-, h⟩ := engineStep_cases b s <;> rw [h] <;> rfl

@[simp] theorem engineStep_right :
    (engineStep b s).right = decodeChannel (fillValue b (decodeWord b .left s).draws) s.right := by
  obtain ⟨-, h⟩ | ⟨-, h⟩ := engineStep_cases b s <;> rw [h] <;> rfl

@[simp] theorem engineStep_err : (engineStep b s).err = s.err := by
  obtain ⟨-, h⟩ | ⟨-, h⟩ := engineStep_cases b s <;> rw [h] <;> simp

@[simp] theorem engineStep_returned : (engineStep b s).returned = s.returned := by
  obtain ⟨-, h⟩ | ⟨-, h⟩ := engineStep_cases b s <;> rw [h] <;> simp

@[simp] theorem engineStep_events : (engineStep b s).events = s.events := by
  obtain ⟨-, h⟩ | ⟨-, h⟩ := engineStep_cases b s <;> rw [h] <;> simp

/-- What is still to come does not matter to an iteration. -/
theorem iterate_withEvents (es : List Event) :
    iterate b (s.withEvents es) = ((iterate b s).1, (iterate b s).2.withEvents es) := by
  have hd : decodeBoth b (s.withEvents es) = (decodeBoth b s).withEvents es := rfl
  cases h : (s.left.readsShort && s.right.readsShort)
  · rw [iterate_continues b s h, iterate_continues b (s.withEvents es) h, hd]
    rfl
  · rw [iterate_terminated b s h, iterate_terminated b (s.withEvents es) h, hd]

theorem engineStep_withEvents (es : List Event) :
    engineStep b (s.withEvents es) = (engineStep b s).withEvents es := by
  unfold engineStep
  rw [iterate_withEvents]
  cases iterate b s with
  | mk r t => cases r <;> rfl

end Sys2Proof.Machine
end

