-- ==== Sys2Proof/Laws/PerInstr.lean ====
section
/-! SUPPORT. Statements made per instruction: one lemma per constructor of `Instr`. -/

namespace Sys2Proof.Laws

/-- The words of an instruction are in canonical form, and the access that carries them is 32 bits wide and
aligned (20_memory.md R47; 30_encoding.md R60). -/
def CarriedByATransaction.Statement (i : Instr) : Prop :=
  (encode i).canonical = encode i
    ∧ (encode i).transaction.width = .word ∧ (encode i).transaction.header.extractLsb' 0 2 = 0#2

theorem CarriedByATransaction.nop : Statement .nop := ⟨rfl, rfl, rfl⟩
theorem CarriedByATransaction.decodeL : Statement .decodeL := ⟨rfl, rfl, rfl⟩
theorem CarriedByATransaction.decodeR : Statement .decodeR := ⟨rfl, rfl, rfl⟩
theorem CarriedByATransaction.step : Statement .step := ⟨rfl, rfl, rfl⟩
theorem CarriedByATransaction.run : Statement .run := ⟨rfl, rfl, rfl⟩
theorem CarriedByATransaction.clear : Statement .clear := ⟨rfl, rfl, rfl⟩
theorem CarriedByATransaction.reservedCmd (word : Word) : Statement (.reservedCmd word) :=
  ⟨rfl, rfl, by simp only [encode, Encoded.transaction]; decide⟩
theorem CarriedByATransaction.wrCmd (data : Word) : Statement (.wrCmd data) :=
  ⟨rfl, rfl, by simp only [encode, Encoded.transaction]; decide⟩
theorem CarriedByATransaction.wrCfg (data : Word) : Statement (.wrCfg data) :=
  ⟨rfl, rfl, by simp only [encode, Encoded.transaction]; decide⟩
theorem CarriedByATransaction.wrIgnored08_0C (o : BitVec 1) (data : Word) :
    Statement (.wrIgnored08_0C o data) := by
  obtain rfl | rfl := bit_values o <;> exact ⟨rfl, rfl, by simp only [encode, Encoded.transaction]; decide⟩
theorem CarriedByATransaction.wrIgnored10_1C (oo : BitVec 2) (data : Word) :
    Statement (.wrIgnored10_1C oo data) := by
  obtain rfl | rfl | rfl | rfl := two_bit_values oo <;> exact ⟨rfl, rfl, by simp only [encode, Encoded.transaction]; decide⟩
theorem CarriedByATransaction.rdCmd : Statement .rdCmd := ⟨rfl, rfl, rfl⟩
theorem CarriedByATransaction.rdCfg : Statement .rdCfg := ⟨rfl, rfl, rfl⟩
theorem CarriedByATransaction.rdStatus : Statement .rdStatus := ⟨rfl, rfl, rfl⟩
theorem CarriedByATransaction.rdFrames : Statement .rdFrames := ⟨rfl, rfl, rfl⟩
theorem CarriedByATransaction.rdSampleL : Statement .rdSampleL := ⟨rfl, rfl, rfl⟩
theorem CarriedByATransaction.rdSampleR : Statement .rdSampleR := ⟨rfl, rfl, rfl⟩
theorem CarriedByATransaction.rdReserved (o : BitVec 1) : Statement (.rdReserved o) := by
  obtain rfl | rfl := bit_values o <;> exact ⟨rfl, rfl, rfl⟩

end Sys2Proof.Laws
end

