-- ==== Sys2Proof/Laws/Step.lean ====
section
/-! SUPPORT. What executing an instruction and taking a step can do, said once: each instruction's outcome, and
the cases of `step`. -/

namespace Sys2Proof.Machine

variable (s : State)

/-- The BUSY rule, one side. -/
theorem whenIdle_idle {op : State → State} (h : s.busy = false) : whenIdle op s = .next (op s) := by
  simp [whenIdle, h]

/-- The BUSY rule, the other side. -/
theorem whenIdle_busy {op : State → State} (h : s.busy = true) :
    whenIdle op s = .next (raiseCmdError errBusy s) := by
  simp [whenIdle, h]

/-- A WR CMD transaction does what the command it carries does (30_encoding.md R69). -/
theorem exec_wrCmd (v : Word) : exec (.wrCmd v) s = exec (decodeCommand v) s := by
  show execWrCmd v s = _
  unfold execWrCmd decodeCommand
  by_cases h0 : cmdRsv v = 0#28
  · have ho := op_values (cmdOp v)
    simp only [List.mem_cons, List.not_mem_nil, or_false] at ho
    simp only [h0, ne_eq, not_true_eq_false, false_or, if_false]
    rcases ho with h | h | h | h | h | h | h | h | h | h | h | h | h | h | h | h <;> rw [h] <;> rfl
  · simp only [h0, ne_eq, not_false_eq_true, true_or, if_true]
    rfl

/-- The register reads. -/
def readInstrs : List Instr :=
  [.rdCmd, .rdCfg, .rdStatus, .rdFrames, .rdSampleL, .rdSampleR, .rdReserved 0#1, .rdReserved 1#1]

theorem rdReserved_mem_readInstrs (o : BitVec 1) : Instr.rdReserved o ∈ readInstrs := by
  obtain rfl | rfl := bit_values o <;> simp [readInstrs]

/-- What executing an instruction can do: nothing, return a word, record an error, or, when BUSY = 0, the body
of the command or CFG write that it is or carries. There is no other outcome. -/
theorem exec_cases (i : Instr) :
    (exec i s = .next s ∧ i ∉ readInstrs)
    ∨ (i ∈ readInstrs ∧ ∃ v, exec i s = .next { s with returned := s.returned ++ [v] })
    ∨ ((∃ w, commandOf i = .reservedCmd w) ∧ exec i s = .next (raiseCmdError errRsvd s))
    ∨ (s.busy = true ∧ (commandOf i ∈ [.decodeL, .decodeR, .step, .run, .clear] ∨ ∃ v, i = .wrCfg v)
        ∧ exec i s = .next (raiseCmdError errBusy s))
    ∨ (s.busy = false ∧ (
        (commandOf i = .decodeL ∧ exec i s = .next (decodeWord Config.build .left s))
        ∨ (commandOf i = .decodeR ∧ exec i s = .next (decodeWord Config.build .right s))
        ∨ (commandOf i = .step ∧ exec i s = .next (stepOnce Config.build s))
        ∨ (commandOf i = .run ∧ exec i s = .next (startRun s))
        ∨ (commandOf i = .clear ∧ exec i s = .next (clearStatus s))
        ∨ (∃ v, i = .wrCfg v ∧ exec i s = .next (writeCfg v s)))) := by
  have idle : ∀ op : State → State, s.busy = true ∧ whenIdle op s = .next (raiseCmdError errBusy s)
      ∨ s.busy = false ∧ whenIdle op s = .next (op s) := fun op => by
    cases h : s.busy
    · exact .inr ⟨rfl, whenIdle_idle s h⟩
    · exact .inl ⟨rfl, whenIdle_busy s h⟩
  have rd : ∀ j ∈ readInstrs, ∀ v, exec j s = returnWord v s →
      j ∈ readInstrs ∧ ∃ v, exec j s = .next { s with returned := s.returned ++ [v] } :=
    fun j hj v e => ⟨hj, v, e⟩
  cases i with
  | nop => exact .inl ⟨rfl, by simp [readInstrs]⟩
  | decodeL =>
    obtain ⟨h, e⟩ | ⟨h, e⟩ := idle (decodeWord Config.build .left) <;> simp [exec, execDecodeL, commandOf, h, e]
  | decodeR =>
    obtain ⟨h, e⟩ | ⟨h, e⟩ := idle (decodeWord Config.build .right) <;> simp [exec, execDecodeR, commandOf, h, e]
  | step => obtain ⟨h, e⟩ | ⟨h, e⟩ := idle (stepOnce Config.build) <;> simp [exec, execStep, commandOf, h, e]
  | run => obtain ⟨h, e⟩ | ⟨h, e⟩ := idle startRun <;> simp [exec, execRun, commandOf, h, e]
  | clear => obtain ⟨h, e⟩ | ⟨h, e⟩ := idle clearStatus <;> simp [exec, execClear, commandOf, h, e]
  | reservedCmd w => exact .inr (.inr (.inl ⟨⟨w, rfl⟩, rfl⟩))
  | wrCmd v =>
    have hm := decodeCommand_mem v
    simp only [List.mem_cons, List.not_mem_nil, or_false] at hm
    rcases hm with hm | hm | hm | hm | hm | hm | hm
    · exact .inl ⟨by rw [exec_wrCmd, hm]; rfl, by simp [readInstrs]⟩
    · rw [exec_wrCmd, hm]
      obtain ⟨h, e⟩ | ⟨h, e⟩ := idle (decodeWord Config.build .left) <;> simp [exec, execDecodeL, commandOf, hm, h, e]
    · rw [exec_wrCmd, hm]
      obtain ⟨h, e⟩ | ⟨h, e⟩ := idle (decodeWord Config.build .right) <;> simp [exec, execDecodeR, commandOf, hm, h, e]
    · rw [exec_wrCmd, hm]
      obtain ⟨h, e⟩ | ⟨h, e⟩ := idle (stepOnce Config.build) <;> simp [exec, execStep, commandOf, hm, h, e]
    · rw [exec_wrCmd, hm]
      obtain ⟨h, e⟩ | ⟨h, e⟩ := idle startRun <;> simp [exec, execRun, commandOf, hm, h, e]
    · rw [exec_wrCmd, hm]
      obtain ⟨h, e⟩ | ⟨h, e⟩ := idle clearStatus <;> simp [exec, execClear, commandOf, hm, h, e]
    · exact .inr (.inr (.inl ⟨⟨v, hm⟩, by rw [exec_wrCmd, hm]; rfl⟩))
  | wrCfg v => obtain ⟨h, e⟩ | ⟨h, e⟩ := idle (writeCfg v) <;> simp [exec, execWrCfg, commandOf, h, e]
  | wrIgnored08_0C o v => exact .inl ⟨rfl, by simp [readInstrs]⟩
  | wrIgnored10_1C oo v => exact .inl ⟨rfl, by simp [readInstrs]⟩
  | rdCmd => exact .inr (.inl (rd _ (by simp [readInstrs]) _ rfl))
  | rdCfg => exact .inr (.inl (rd _ (by simp [readInstrs]) _ rfl))
  | rdStatus => exact .inr (.inl (rd _ (by simp [readInstrs]) _ rfl))
  | rdFrames => exact .inr (.inl (rd _ (by simp [readInstrs]) _ rfl))
  | rdSampleL => exact .inr (.inl (rd _ (by simp [readInstrs]) _ rfl))
  | rdSampleR => exact .inr (.inl (rd _ (by simp [readInstrs]) _ rfl))
  | rdReserved o => exact .inr (.inl (rd _ (rdReserved_mem_readInstrs o) _ rfl))

/-- What a step can do. -/
theorem step_cases {t : State} (h : step s = .next t) :
    (s.events = [] ∧ t = engineTurn Config.build s)
    ∨ ∃ e rest, s.events = e :: rest ∧ (
        (e = .engine ∧ t = engineTurn Config.build (s.withEvents rest))
        ∨ (e = .reset ∧ t = resetBlock (s.withEvents rest))
        ∨ (∃ streams, e = .supply streams ∧ supplyStreams streams (s.withEvents rest) = .next t)
        ∨ ∃ tr i, e = .transaction tr ∧ decodeTransaction tr = .ok i ∧ exec i (s.withEvents rest) = .next t) := by
  unfold step at h
  split at h
  · next he => exact .inl ⟨he, by simpa using h.symm⟩
  · next rest he => exact .inr ⟨_, rest, he, .inl ⟨rfl, by simpa using h.symm⟩⟩
  · next rest he => exact .inr ⟨_, rest, he, .inr (.inl ⟨rfl, by simpa using h.symm⟩)⟩
  · next streams rest he => exact .inr ⟨_, rest, he, .inr (.inr (.inl ⟨streams, rfl, h⟩))⟩
  · next tr rest he =>
    split at h
    · next i hi => exact .inr ⟨_, rest, he, .inr (.inr (.inr ⟨tr, i, rfl, hi, h⟩))⟩
    · simp at h

/-- What a supply of streams can do. -/
theorem supplyStreams_cases {streams : Streams} {t : State} (h : supplyStreams streams s = .next t) :
    s.busy = false ∧ streams.leftPos ≤ streams.leftBytes.length ∧ streams.rightPos ≤ streams.rightBytes.length
      ∧ t = { s with
          left := { s.left with bytes := streams.leftBytes, pos := streams.leftPos }
          right := { s.right with bytes := streams.rightBytes, pos := streams.rightPos }
          out := streams.out } := by
  unfold supplyStreams at h
  split at h
  · simp at h
  · next hb =>
    split at h
    · next hp => exact ⟨by simpa using hb, hp.1, hp.2, by simpa using h.symm⟩
    · simp at h

end Sys2Proof.Machine
end

