-- ==== Sys2Proof/Tests/Slice0.lean ====
section
/-! SUPPORT. Tests, each about one step on a small state, with the expected result from the spec's own vectors
(95_test_vectors.md), examples and tables; the smoke test of WellFormed; and for every obligation with
hypotheses a witness that meets them, one for each clause. -/

namespace Sys2Proof.Tests

open Sys2Proof.Machine

/-! ### Helpers -/

/-- The next state, if there is one. -/
def nextOf : Result → Option State
  | .next s => some s
  | .fault _ => none
  | .refused _ => none

/-- The reset state with a CFG word written and two streams supplied at position 0. -/
def session (cfg : Word) (l r : List Byte) : State :=
  writeCfg cfg { State.reset with
    left := { Channel.reset with bytes := l }, right := { Channel.reset with bytes := r } }

/-- The reset state with a run in progress and an ERR code. -/
def running (err : BitVec 2) : State := { State.reset with busy := true, err := err }

/-- The reset state with events still to come. -/
def pending (events : List Event) : State := { State.reset with events := events }

/-- A WR CMD access. -/
def cmdAccess (word : Word) : Transaction := ⟨.word, 0x20#6, word⟩

/-! ### WellFormed: the check refuses an ill-formed term -/

theorem test_wellFormed_refuses_command_words :
    (Instr.reservedCmd 0x0#32).wellFormed = false ∧ (Instr.reservedCmd 0x5#32).wellFormed = false
      ∧ (Instr.reservedCmd 0x6#32).wellFormed = true ∧ (Instr.reservedCmd 0x10#32).wellFormed = true := by decide

/-! ### Decoding: words written out bit by bit from 30_encoding.md R60, R62, R68, R77 -/

theorem test_decode_commands :
    decode (.cmd 0b00000000000000000000000000000000#32) = .ok .nop
    ∧ decode (.cmd 0b00000000000000000000000000000001#32) = .ok .decodeL
    ∧ decode (.cmd 0b00000000000000000000000000000010#32) = .ok .decodeR
    ∧ decode (.cmd 0b00000000000000000000000000000011#32) = .ok .step
    ∧ decode (.cmd 0b00000000000000000000000000000100#32) = .ok .run
    ∧ decode (.cmd 0b00000000000000000000000000000101#32) = .ok .clear := ⟨rfl, rfl, rfl, rfl, rfl, rfl⟩

theorem test_decode_reserved :
    decode (.cmd 0b00000000000000000000000000000110#32) = .ok (.reservedCmd 6#32)
    ∧ decode (.cmd 0b00000000000000000000000000010000#32) = .ok (.reservedCmd 16#32)
    ∧ decode (.cmd 0b10000000000000000000000000000001#32) = .ok (.reservedCmd 0x80000001#32) := ⟨rfl, rfl, rfl⟩

theorem test_decode_writes :
    decode (.bus 0b100000#6 7#32) = .ok (.wrCmd 7#32)
    ∧ decode (.bus 0b100100#6 7#32) = .ok (.wrCfg 7#32)
    ∧ decode (.bus 0b101000#6 7#32) = .ok (.wrIgnored08_0C 0b0#1 7#32)
    ∧ decode (.bus 0b101100#6 7#32) = .ok (.wrIgnored08_0C 0b1#1 7#32)
    ∧ decode (.bus 0b110000#6 7#32) = .ok (.wrIgnored10_1C 0b00#2 7#32)
    ∧ decode (.bus 0b111100#6 7#32) = .ok (.wrIgnored10_1C 0b11#2 7#32) := ⟨rfl, rfl, rfl, rfl, rfl, rfl⟩

theorem test_decode_reads :
    decode (.bus 0b000000#6 0#32) = .ok .rdCmd ∧ decode (.bus 0b000100#6 0#32) = .ok .rdCfg
    ∧ decode (.bus 0b001000#6 0#32) = .ok .rdStatus ∧ decode (.bus 0b001100#6 0#32) = .ok .rdFrames
    ∧ decode (.bus 0b010000#6 0#32) = .ok .rdSampleL ∧ decode (.bus 0b010100#6 0#32) = .ok .rdSampleR
    ∧ decode (.bus 0b011000#6 0#32) = .ok (.rdReserved 0b0#1)
    ∧ decode (.bus 0b011100#6 0#32) = .ok (.rdReserved 0b1#1) := ⟨rfl, rfl, rfl, rfl, rfl, rfl, rfl, rfl⟩

theorem test_decode_misaligned :
    decode (.bus 0b000001#6 0#32) = .error .misalignedOffset
    ∧ decode (.bus 0b100110#6 0#32) = .error .misalignedOffset := ⟨rfl, rfl⟩

/-- Opcode-table words: a CMD row, a header row, and padding bits that no row has. -/
theorem test_decodeTableWord :
    decodeTableWord 32 3 = some .step ∧ decodeTableWord 8 0x34 = some (.wrIgnored10_1C 1#2 0#32)
      ∧ decodeTableWord 8 0x20 = some (.wrCmd 0#32) ∧ decodeTableWord 8 0x41 = none := by decide

/-- A fetched CMD word and a fetched header run as the first instruction after reset (V5: `wr CMD, 0x6` gives
STATUS = 0x10). -/
theorem test_step_fetched :
    (nextOf (step (State.reset.withFetchWord 32 6))).map (·.statusWord) = some 0x10#32
    ∧ (nextOf (step (State.reset.withFetchWord 8 0x08))).map (·.returned) = some [0x00000000#32] := by decide

/-- V5, last row: a byte access, and a word access at 0x06. -/
theorem test_step_refuses :
    step (pending [.transaction ⟨.byte, 0b100101#6, 0#32⟩]) = .refused (.noTransaction .subWordAccess)
    ∧ step (pending [.transaction ⟨.word, 0b000110#6, 0#32⟩]) = .refused (.noTransaction .misalignedOffset) :=
  ⟨rfl, rfl⟩

/-! ### The Word Decoder (95_test_vectors.md V1, V2; 40_word_decoder.md R88, R89) -/

theorem test_decodeL_min_width1 :
    (nextOf (exec .decodeL (session 0x00#32 [0x80#8] []))).map (fun t => (t.left.sample, t.left.exh, t.left.pos))
      = some (0xFFFFFF80#32, false, 1) := by decide

/-- V2: a partial word after a success is consumed, and the sample overwritten by the fill. -/
theorem test_decodeL_partial :
    (nextOf (exec .decodeL { session 0x05#32 [0x12#8] [] with done := true })).map
      (fun t => (t.left.sample, t.left.exh, t.left.pos, t.done)) = some (0x00000000#32, true, 1, true) := by decide

theorem test_decodeR_width3_be :
    (nextOf (exec .decodeR (session 0x20#32 [] [0x80#8, 0x00#8, 0x01#8]))).map
      (fun t => (t.right.sample, t.right.exh, t.right.pos)) = some (0xFF800001#32, false, 3) := by decide

theorem test_decodeR_width4_be :
    (nextOf (exec .decodeR (session 0x30#32 [] [0x12#8, 0x34#8, 0x56#8, 0x78#8]))).map (·.right.sample)
      = some 0x12345678#32 := by decide

/-- V1: the widths and orders, by `sampleOf`. -/
theorem test_sampleOf :
    sampleOf 2 true [0xFF#8, 0x7F#8] = 0x00007FFF#32 ∧ sampleOf 2 true [0x00#8, 0x80#8] = 0xFFFF8000#32
    ∧ sampleOf 2 false [0x02#8, 0x01#8] = 0x00000201#32 ∧ sampleOf 2 false [0x00#8, 0x80#8] = 0x00000080#32
    ∧ sampleOf 3 true [0x00#8, 0x00#8, 0x80#8] = 0xFF800000#32 ∧ sampleOf 3 false [0x03#8, 0x02#8, 0x01#8] = 0x00030201#32
    ∧ sampleOf 4 true [0xFF#8, 0xFF#8, 0xFF#8, 0x7F#8] = 0x7FFFFFFF#32
    ∧ sampleOf 4 false [0x80#8, 0x00#8, 0x00#8, 0x00#8] = 0x80000000#32 := by decide

/-- Under FILL_MODE = ANY a short read takes a fresh draw (00_scope.md R8). -/
theorem test_decodeWord_any :
    (decodeWord ⟨.le, .any⟩ .left State.reset).left.sample = Config.draw32 0
      ∧ (decodeWord ⟨.le, .any⟩ .left State.reset).draws = 1 := ⟨rfl, rfl⟩

/-! ### The interleaver (95_test_vectors.md V3, V4, P3) -/

/-- P3, step 1: both native orders. -/
theorem test_engineStep_frame :
    (engineStep ⟨.le, .zero⟩ (session 0x42#32 [0x80#8, 0x00#8, 0x01#8] [0xFE#8])).out
      = [0x01#8, 0x00#8, 0x80#8, 0xFF#8, 0xFE#8, 0xFF#8, 0xFF#8, 0xFF#8]
    ∧ (engineStep ⟨.be, .zero⟩ (session 0x42#32 [0x80#8, 0x00#8, 0x01#8] [0xFE#8])).out
      = [0xFF#8, 0x80#8, 0x00#8, 0x01#8, 0xFF#8, 0xFF#8, 0xFF#8, 0xFE#8] := by decide

/-- V4, rows 1 and 4: STATUS = 0x08; FRAMES wraps. -/
theorem test_step_one_exhausted :
    (nextOf (exec .step { session 0x55#32 [0x01#8, 0x00#8] [] with frames := 0xFFFFFFFF#32 })).map
      (fun t => (t.statusWord, t.frames, t.left.sample)) = some (0x08#32, 0x00000000#32, 0x00000001#32) := by decide

/-- V4, row 2: nothing left, STATUS = 0x0E, no frame. -/
theorem test_step_both_exhausted :
    (nextOf (exec .step { session 0x55#32 [] [] with frames := 1#32 })).map
      (fun t => (t.statusWord, t.frames, t.out)) = some (0x0E#32, 1#32, []) := by decide

/-- V4, row 5: FRAMES = 7, DONE = 1, RUN. -/
theorem test_run_starts :
    (nextOf (exec .run { State.reset with frames := 7#32, done := true })).map (fun t => (t.statusWord, t.frames))
      = some (0x01#32, 0#32) := by decide

/-- S8: with both streams empty, one engine step ends the run, STATUS = 0x0E. -/
theorem test_engine_ends_run :
    (nextOf (step (running 0#2))).map (fun t => (t.statusWord, t.frames, t.out)) = some (0x0E#32, 0#32, []) := by
  decide

/-! ### Control and registers (95_test_vectors.md V5) -/

theorem test_clear :
    (nextOf (exec .clear { session 0x55#32 [] [] with done := true, err := 1#2, frames := 5#32 })).map
      (fun t => (t.statusWord, t.frames, t.cfgWord)) = some (0x00#32, 0#32, 0x55#32) := by decide

/-- BUSY = 1, ERR = 1: CLEAR is rejected and ERR stays 1. -/
theorem test_clear_busy : (nextOf (exec .clear (running 1#2))).map (·.statusWord) = some 0x11#32 := by decide

/-- BUSY = 1: `wr CMD, 0x7` records RSVD, not BUSY. -/
theorem test_reserved_before_busy :
    (nextOf (exec (.wrCmd 7#32) (running 0#2))).map (·.err) = some 1#2
    ∧ (nextOf (exec (.wrCmd 3#32) (running 0#2))).map (·.err) = some 2#2 := by decide

/-- `wr CMD, 0x10` is not NOP. -/
theorem test_wrCmd_reserved : (nextOf (exec (.wrCmd 0x10#32) State.reset)).map (·.statusWord) = some 0x10#32 := by
  decide

theorem test_reservedCmd_keeps_first :
    (nextOf (exec (.reservedCmd 0x6#32) { State.reset with err := 2#2 })).map (·.err) = some 2#2 := by decide

theorem test_nop_busy : exec .nop (running 1#2) = .next (running 1#2) := rfl

/-- `wr CFG, 0xFFFFFFFF` reads back 0x77; 0x42 gives W_L = 3, L_LE = 0, W_R = 1, R_LE = 1. -/
theorem test_wrCfg :
    (nextOf (exec (.wrCfg 0xFFFFFFFF#32) State.reset)).map (·.cfgWord) = some 0x77#32
    ∧ (nextOf (exec (.wrCfg 0x42#32) State.reset)).map
        (fun t => (t.left.width, t.left.le, t.right.width, t.right.le)) = some (3, false, 1, true) := by decide

/-- BUSY = 1, CFG = 0x00: `wr CFG, 0x55` leaves CFG and records 2. -/
theorem test_wrCfg_busy :
    (nextOf (exec (.wrCfg 0x55#32) (running 0#2))).map (fun t => (t.cfgWord, t.err)) = some (0x00#32, 2#2) := by decide

theorem test_ignored_writes :
    exec (.wrIgnored08_0C 0#1 0xFFFFFFFF#32) State.reset = .next State.reset
    ∧ exec (.wrIgnored10_1C 2#2 5#32) State.reset = .next State.reset := ⟨rfl, rfl⟩

theorem test_reads :
    (nextOf (exec .rdCmd (session 0x42#32 [] []))).map (·.returned) = some [0#32]
    ∧ (nextOf (exec .rdCfg (session 0x42#32 [] []))).map (·.returned) = some [0x42#32]
    ∧ (nextOf (exec .rdFrames { State.reset with frames := 5#32 })).map (·.returned) = some [5#32]
    ∧ (nextOf (exec (.rdReserved 1#1) (session 0x42#32 [] []))).map (·.returned) = some [0#32] := by decide

theorem test_read_status :
    (nextOf (exec .rdStatus { running 2#2 with right := { Channel.reset with exh := true } })).map (·.returned)
      = some [0x29#32] := by decide

theorem test_read_samples :
    (nextOf (exec .rdSampleL { State.reset with left := { Channel.reset with sample := 7#32 } })).map (·.returned)
      = some [7#32]
    ∧ (nextOf (exec .rdSampleR { State.reset with right := { Channel.reset with sample := 9#32 } })).map (·.returned)
      = some [9#32] := by decide

/-! ### Events -/

/-- Reset during a run: BUSY = 0, the streams and OUT as they were. -/
theorem test_reset_ends_run :
    (nextOf (step { session 0x55#32 [1#8, 2#8] [] with busy := true, out := [9#8], events := [.reset] })).map
      (fun t => (t.statusWord, t.cfgWord, t.left.bytes, t.out)) = some (0#32, 0#32, [1#8, 2#8], [9#8]) := by decide

theorem test_supply :
    (nextOf (step (pending [.supply ⟨[1#8], 1, [2#8], 0, []⟩]))).map (fun t => (t.left.pos, t.right.bytes))
      = some (1, [2#8])
    ∧ step { running 0#2 with events := [.supply ⟨[], 0, [], 0, []⟩] } = .refused .streamsChangedWhileBusy :=
  ⟨by decide, rfl⟩

/-! ### Witnesses: hypotheses that are met, clause by clause -/

theorem witness_DecodeAndEncodeAgree :
    (Instr.reservedCmd 0x6#32).wellFormed = true ∧ decode (.cmd 0xFFFFFFFF#32) = .ok (.reservedCmd 0xFFFFFFFF#32)
      ∧ decode (.bus 0x3C#6 1#32) = .ok (.wrIgnored10_1C 3#2 1#32)
      ∧ decode (.bus 0x08#6 1#32) = .ok .rdStatus := ⟨by decide, rfl, rfl, rfl⟩

theorem witness_CommandWordsDecode : 6#4 ≤ 6#4 ∧ 6#4 ≤ 15#4 := by decide

theorem witness_HeadersDecodeToTheirOperations :
    (0x01#6 : Header).extractLsb' 0 2 ≠ 0#2 ∧ (0x3F#6 : Header).extractLsb' 0 2 ≠ 0#2 := by decide

theorem witness_SubWordAndMisalignedAccessesAreRefused :
    (pending [.transaction ⟨.half, 0x04#6, 0#32⟩]).events = .transaction ⟨.half, 0x04#6, 0#32⟩ :: []
      ∧ (pending [.transaction ⟨.word, 0x3C#6, 0#32⟩]).events = .transaction ⟨.word, 0x3C#6, 0#32⟩ :: [] := ⟨rfl, rfl⟩

theorem witness_StepRunsTheDecodedInstruction :
    (pending [.transaction (cmdAccess 3#32)]).events = .transaction (cmdAccess 3#32) :: []
      ∧ decodeTransaction (cmdAccess 3#32) = .ok (.wrCmd 3#32) := ⟨rfl, rfl⟩

theorem witness_TableWordsRunWhatTheyDecodeTo :
    decodeTableWord 32 0xFFFFFFFF = some (.reservedCmd 0xFFFFFFFF#32) ∧ decodeTableWord 8 0x1C = some (.rdReserved 1#1) := by
  decide

/-- The clauses exclude each other: 6 and 0x10 are reserved, 5 is not. -/
theorem witness_CmdWriteRunsItsCommand :
    ((0x10#32 : Word).extractLsb' 4 28 ≠ 0#28 ∧ 6#4 ≤ (0x6#32 : Word).extractLsb' 0 4)
    ∧ (running 0#2).busy = true ∧ State.reset.busy = false
    ∧ ((5#32 : Word).extractLsb' 4 28 = 0#28 ∧ ¬ 6#4 ≤ (5#32 : Word).extractLsb' 0 4) := by decide

theorem witness_RaiseRecordsTheFirstError : State.reset.err = 0#2 ∧ (running 1#2).err ≠ 0#2 := by decide

theorem witness_ReservedEncodingsAreRejected :
    6#4 ≤ (0x0000000F#32 : Word).extractLsb' 0 4 ∧ (0x80000000#32 : Word).extractLsb' 4 28 ≠ 0#28
      ∧ State.reset.busy = false := by decide

theorem witness_BusyRule :
    (running 0#2).busy = true ∧ decodeCommand 1#32 = .decodeL ∧ decodeCommand 2#32 = .decodeR ∧ decodeCommand 3#32 = .step
      ∧ decodeCommand 4#32 = .run ∧ decodeCommand 5#32 = .clear ∧ decodeCommand 6#32 = .reservedCmd 6#32
      ∧ ∃ t, exec .rdStatus (running 0#2) = .next t := ⟨rfl, rfl, rfl, rfl, rfl, rfl, rfl, _, rfl⟩

theorem witness_RejectedOperationsArePrecise :
    (running 0#2).busy = true ∧ ∃ t, exec .step (running 0#2) = .next t := ⟨rfl, _, rfl⟩

/-- One state for each disjunct: kept, cleared by reset, cleared by CLEAR. -/
theorem witness_OnlyClearAndResetClearErr :
    (∃ t, step (running 1#2) = .next t ∧ (running 1#2).err ≠ 0#2)
    ∧ (∃ t, step { running 1#2 with events := [.reset] } = .next t ∧ t.err = 0#2)
    ∧ ∃ t, step { State.reset with err := 1#2, events := [.transaction (cmdAccess 5#32)] } = .next t ∧ t.err = 0#2 :=
  ⟨⟨_, rfl, by decide⟩, ⟨_, rfl, rfl⟩, ⟨_, rfl, rfl⟩⟩

/-- A read that ends exactly at the end is full; one byte less is short, under either fill mode. -/
theorem witness_DecodeWordReadsOneWord :
    ((session 0x01#32 [1#8, 2#8] []).channel .left).wsel.toNat + 1 = 2
    ∧ ((session 0x01#32 [1#8, 2#8] []).channel .left).pos + 2 ≤ [1#8, 2#8].length
    ∧ ((session 0x01#32 [1#8] []).channel .left).pos ≤ [1#8].length
    ∧ [1#8].length < ((session 0x01#32 [1#8] []).channel .left).pos + 2
    ∧ (⟨.le, .zero⟩ : Build).fillMode = .zero ∧ (⟨.le, .any⟩ : Build).fillMode = .any := by decide

theorem witness_DecodeCommandsReadOneWord :
    (running 0#2).busy = true ∧ (session 0x00#32 [1#8] []).busy = false
    ∧ ((session 0x00#32 [1#8] []).channel .left).pos + 1 ≤ [1#8].length
    ∧ ((session 0x00#32 [] []).channel .right).pos ≤ 0 ∧ 0 < ((session 0x00#32 [] []).channel .right).pos + 1 := by decide

theorem witness_ShortReadsStayAtTheEnd :
    ((session 0x03#32 [1#8, 2#8, 3#8] []).channel .left).pos ≤ 3
    ∧ 3 < ((session 0x03#32 [1#8, 2#8, 3#8] []).channel .left).pos + ((session 0x03#32 [1#8, 2#8, 3#8] []).channel .left).width := by
  decide

theorem witness_SamplesAreSignExtended :
    ((session 0x00#32 [0x80#8] []).channel .left).pos + 1 ≤ [0x80#8].length
    ∧ ((session 0x03#32 [1#8, 2#8, 3#8, 0x80#8] []).channel .left).pos + 4 ≤ 4
    ∧ 4 = ((session 0x03#32 [1#8, 2#8, 3#8, 0x80#8] []).channel .left).wsel.toNat + 1 := by decide

theorem witness_DecodeRoundTrips :
    ((session 0x02#32 [1#8, 2#8, 3#8] []).channel .left).pos + ((session 0x02#32 [1#8, 2#8, 3#8] []).channel .left).width ≤ 3
    ∧ sampleOf 1 true [0x80#8] = sampleOf 1 true [0x80#8] := by decide

/-- A multiple of W, and a position at the end that is none. -/
theorem witness_PositionsStayAligned :
    ((session 0x01#32 [1#8, 2#8, 3#8] []).channel .left).width ∣ ((session 0x01#32 [1#8, 2#8, 3#8] []).channel .left).pos
    ∧ ({ (session 0x01#32 [1#8, 2#8, 3#8] []).left with pos := 3 } : Channel).pos
        = (session 0x01#32 [1#8, 2#8, 3#8] []).left.bytes.length := by decide

theorem witness_IterateDecodesBothAndWritesAFrame :
    ((decodeWord ⟨.le, .zero⟩ .right (decodeWord ⟨.le, .zero⟩ .left State.reset)).left.exh = true
      ∧ (decodeWord ⟨.le, .zero⟩ .right (decodeWord ⟨.le, .zero⟩ .left State.reset)).right.exh = true)
    ∧ (decodeWord ⟨.le, .zero⟩ .right (decodeWord ⟨.le, .zero⟩ .left (session 0#32 [1#8] []))).left.exh = false := by decide

/-- The two clauses for one short channel, and a channel at its end. -/
theorem witness_ExhaustedChannelsAreStillRead :
    (State.reset.left.pos = State.reset.left.bytes.length)
    ∧ ((session 0x00#32 [] [1#8]).left.remaining < (session 0x00#32 [] [1#8]).left.width
      ∧ (session 0x00#32 [] [1#8]).right.width ≤ (session 0x00#32 [] [1#8]).right.remaining)
    ∧ ((session 0x01#32 [1#8, 2#8] []).left.width ≤ (session 0x01#32 [1#8, 2#8] []).left.remaining
      ∧ (session 0x01#32 [1#8, 2#8] []).right.remaining < (session 0x01#32 [1#8, 2#8] []).right.width) := by decide

theorem witness_StepCommandRunsOneIteration :
    (running 0#2).busy = true ∧ State.reset.busy = false
    ∧ (decodeWord Config.build .right (decodeWord Config.build .left State.reset)).left.exh = true
    ∧ (decodeWord Config.build .right (decodeWord Config.build .left State.reset)).right.exh = true
    ∧ (decodeWord Config.build .right (decodeWord Config.build .left (session 0#32 [1#8] []))).left.exh = false
    ∧ State.reset.left.pos = State.reset.left.bytes.length ∧ State.reset.right.pos = State.reset.right.bytes.length
    ∧ (session 0x00#32 [] [1#8]).right.width ≤ (session 0x00#32 [] [1#8]).right.remaining
    ∧ (session 0x00#32 [1#8] []).left.width ≤ (session 0x00#32 [1#8] []).left.remaining := by decide

theorem witness_RunCommandStartsTheEngine :
    (running 0#2).busy = true ∧ State.reset.busy = false
    ∧ State.reset.left.pos = State.reset.left.bytes.length ∧ State.reset.right.pos = State.reset.right.bytes.length
    ∧ (∃ t, exec .run State.reset = .next t) ∧ ∃ t, exec .clear (running 0#2) = .next t :=
  ⟨rfl, rfl, rfl, rfl, ⟨_, rfl⟩, ⟨_, rfl⟩⟩

theorem witness_EngineStepIteratesWhileBusy :
    State.reset.busy = false ∧ (running 0#2).busy = true
    ∧ (∃ t, iterate ⟨.le, .zero⟩ (running 0#2) = (.terminated, t))
    ∧ (∃ t, iterate ⟨.le, .zero⟩ { session 0#32 [1#8] [] with busy := true } = (.continues, t))
    ∧ ∃ t, exec (.wrCfg 1#32) (running 0#2) = .next t := ⟨rfl, rfl, ⟨_, rfl⟩, ⟨_, rfl⟩, ⟨_, rfl⟩⟩

theorem witness_TheMachineTakesTheEngineSteps :
    (pending [.engine]).events = .engine :: [] ∧ State.reset.events = [] ∧ State.reset.busy = false
    ∧ (running 0#2).events = [] ∧ (running 0#2).busy = true ∧ 1 ≤ (running 0#2).framesToCome + 1 := by decide

/-- F = 2: five bytes of width 2 on the left, one byte of width 1 on the right. -/
theorem witness_RunWritesTheMaximumOfTheReadableWords :
    (session 0x01#32 [1#8, 2#8, 3#8, 4#8, 5#8] [6#8]).busy = false
    ∧ (∃ s, exec .run (session 0x01#32 [1#8, 2#8, 3#8, 4#8, 5#8] [6#8]) = .next s)
    ∧ (session 0x01#32 [1#8, 2#8, 3#8, 4#8, 5#8] [6#8]).framesToCome = 2 := ⟨rfl, ⟨_, rfl⟩, rfl⟩

theorem witness_RunProducesTheInterleavedFrames :
    (session 0x01#32 [1#8, 2#8, 3#8] []).busy = false
    ∧ (∃ s, exec .run (session 0x01#32 [1#8, 2#8, 3#8] []) = .next s)
    ∧ (session 0x01#32 [1#8, 2#8, 3#8] []).framesToCome = 1
    ∧ (pending [.reset]).events = .reset :: [] := ⟨rfl, ⟨_, rfl⟩, rfl, rfl⟩

theorem witness_NoFrameWhenBothAreExhausted :
    ((iterate ⟨.le, .zero⟩ State.reset).2.left.exh = true ∧ (iterate ⟨.le, .zero⟩ State.reset).2.right.exh = true)
    ∧ (running 0#2).busy = true
    ∧ (session 0x00#32 [1#8, 2#8] [3#8, 4#8]).left.readable = 2 ∧ (session 0x00#32 [1#8, 2#8] [3#8, 4#8]).right.readable = 2
    ∧ (session 0x00#32 [1#8, 2#8] [3#8, 4#8]).busy = false := by decide

/-- One step for each case: unchanged, counted, cleared by reset, by RUN and by CLEAR. -/
theorem witness_FramesCountsModulo :
    (∃ t, iterate ⟨.le, .zero⟩ { session 0#32 [1#8] [] with frames := 0xFFFFFFFF#32 } = (.continues, t))
    ∧ (∃ t, iterate ⟨.le, .zero⟩ State.reset = (.terminated, t))
    ∧ (∃ t, step State.reset = .next t) ∧ (∃ t, step { session 0#32 [1#8] [] with busy := true } = .next t)
    ∧ (∃ t, step { State.reset with frames := 3#32, events := [.reset] } = .next t)
    ∧ (∃ t, step { State.reset with frames := 3#32, events := [.transaction (cmdAccess 4#32)] } = .next t)
    ∧ ∃ t, step { State.reset with frames := 3#32, events := [.transaction (cmdAccess 5#32)] } = .next t :=
  ⟨⟨_, rfl⟩, ⟨_, rfl⟩, ⟨_, rfl⟩, ⟨_, rfl⟩, ⟨_, rfl⟩, ⟨_, rfl⟩, ⟨_, rfl⟩⟩

theorem witness_StepCommandAgreesWithTheEngine : State.reset.busy = false ∧ (session 0#32 [1#8] []).busy = false :=
  ⟨rfl, rfl⟩

/-- F = 2 with two engine turns and two accesses, one of them rejected. -/
theorem witness_HostAccessesDoNotDisturbARun :
    ({ session 0#32 [1#8, 2#8] [] with busy := true } : State).framesToCome = 2
    ∧ (∀ e ∈ [Event.engine, .transaction (cmdAccess 5#32), .engine, .transaction ⟨.word, 0x08#6, 0#32⟩], e.duringRun = true)
    ∧ [Event.engine, .transaction (cmdAccess 5#32), .engine, .transaction ⟨.word, 0x08#6, 0#32⟩].count .engine ≤ 2 := by
  decide

theorem witness_NopChangesNothing :
    (0x10#32 : Word).extractLsb' 0 4 = 0#4 ∧ (0x10#32 : Word).extractLsb' 4 28 ≠ 0#28 := by decide

theorem witness_ClearResetsStatusCounterAndSamples :
    (running 0#2).busy = true ∧ State.reset.busy = false
    ∧ ∃ t, exec (.wrCmd 5#32) { State.reset with err := 1#2 } = .next t ∧ t.err = 0#2 := ⟨rfl, rfl, _, rfl, rfl⟩

theorem witness_WriteCfgSetsTheFourFields :
    (running 0#2).busy = true ∧ State.reset.busy = false ∧ ∃ t, exec (.wrCfg 0x42#32) State.reset = .next t :=
  ⟨rfl, rfl, _, rfl⟩

theorem witness_SideEffectsOfAccesses :
    (∃ t, exec (.wrCfg 0x42#32) State.reset = .next t) ∧ (session 0x01#32 [1#8, 2#8, 3#8, 4#8] []).busy = false
    ∧ ((session 0x01#32 [1#8, 2#8, 3#8, 4#8] []).channel .left).pos
        + 2 * ((session 0x01#32 [1#8, 2#8, 3#8, 4#8] []).channel .left).width ≤ 4 := ⟨⟨_, rfl⟩, rfl, by decide⟩

theorem witness_InstructionsLeaveTheStreams :
    (∃ t, exec .step (session 0#32 [1#8] []) = .next t) ∧ ∃ t, exec .decodeL (session 0#32 [1#8] []) = .next t :=
  ⟨⟨_, rfl⟩, ⟨_, rfl⟩⟩

theorem witness_InstructionsLeaveTheRegisters :
    (∃ t, exec .rdCmd State.reset = .next t) ∧ (∃ t, exec (.wrCfg 1#32) State.reset = .next t)
    ∧ ∃ t, exec (.wrCmd 4#32) State.reset = .next t := ⟨⟨_, rfl⟩, ⟨_, rfl⟩, ⟨_, rfl⟩⟩

theorem witness_PositionsOnlyMoveForward :
    (∃ t, step { session 0#32 [1#8] [] with busy := true, events := [.engine] } = .next t)
    ∧ Event.engine.isSupply = false ∧ (pending [.reset]).events = .reset :: [] ∧ ∃ t, step (pending [.reset]) = .next t :=
  ⟨⟨_, rfl⟩, rfl, rfl, ⟨_, rfl⟩⟩

theorem witness_OutputIsOnlyAppendedTo :
    (∃ t, step { session 0#32 [1#8] [] with events := [.transaction (cmdAccess 3#32)] } = .next t)
    ∧ (Event.transaction (cmdAccess 3#32)).isSupply = false := ⟨⟨_, rfl⟩, rfl⟩

theorem witness_StreamsAreNotReadableThroughThePort :
    (∃ t, exec .rdSampleL (session 0#32 [1#8] []) = .next t) ∧ ∃ t, exec .rdSampleL (session 0#32 [] [2#8]) = .next t :=
  ⟨⟨_, rfl⟩, ⟨_, rfl⟩⟩

theorem witness_OutputWordBytes :
    (0xFFFF8000#32 : Word).toNat
      = (0xFF#8 : Byte).toNat * 2 ^ 24 + (0xFF#8 : Byte).toNat * 2 ^ 16 + (0x80#8 : Byte).toNat * 2 ^ 8 + (0#8 : Byte).toNat := by
  decide

theorem witness_ResetClearsTheRegisters : ({ running 1#2 with events := [.reset] } : State).events = .reset :: [] := rfl

/-- One supply for each clause: at the boundary position, one past it, and during a run. -/
theorem witness_StreamsAreSuppliedOnlyWhenIdle :
    (pending [.supply ⟨[1#8], 1, [], 0, []⟩]).events = .supply ⟨[1#8], 1, [], 0, []⟩ :: []
    ∧ (1 ≤ [1#8].length ∧ [1#8].length < 2) ∧ (pending [.supply ⟨[1#8], 2, [], 0, []⟩]).busy = false
    ∧ ({ running 0#2 with events := [.supply ⟨[], 0, [], 0, []⟩] } : State).busy = true := ⟨rfl, by decide, rfl, rfl⟩

theorem witness_StepKeepsTheMachineInvariant : (running 1#2).Inv ∧ ∃ t, step (running 1#2) = .next t :=
  ⟨⟨by decide, by decide, by decide, by decide⟩, _, rfl⟩

theorem witness_StepKeepsTheSessionInvariant :
    (running 1#2).SessionInv ∧ (running 1#2).events = [] ∧ ∃ t, step (running 1#2) = .next t :=
  ⟨⟨⟨by decide, by decide, by decide, by decide⟩, by decide, by decide, by decide⟩, rfl, _, rfl⟩

end Sys2Proof.Tests
end

section
/-! SUPPORT. The value of a raw word: `sampleOf` agrees with the formula of 30_encoding.md R72
(40_word_decoder.md R82, R85). -/

namespace Sys2Proof.Machine

/-! ### The value of a byte list in either order -/

theorem valueLsbFirst_append (xs ys : List Byte) :
    valueLsbFirst (xs ++ ys) = valueLsbFirst xs + 256 ^ xs.length * valueLsbFirst ys := by
  induction xs with
  | nil => simp [valueLsbFirst]
  | cons x xs ih => simp only [List.cons_append, valueLsbFirst, ih, List.length_cons]; ring

theorem valueMsbFirst_eq_reverse (bs : List Byte) : valueMsbFirst bs = valueLsbFirst bs.reverse := by
  induction bs with
  | nil => rfl
  | cons b bs ih =>
    simp only [List.reverse_cons, valueLsbFirst_append, List.length_reverse, ← ih, valueMsbFirst, valueLsbFirst]
    ring

theorem valueLsbFirst_lt (bs : List Byte) : valueLsbFirst bs < 256 ^ bs.length := by
  induction bs with
  | nil => simp [valueLsbFirst]
  | cons b bs ih =>
    have := b.isLt
    simp only [valueLsbFirst, List.length_cons, pow_succ]
    omega

/-- The spec's formula, read off the normalised bytes: their unsigned value, less 2^(8W) when bit 7 of the last
byte is set. -/
theorem rawValue_eq_normalise (le : Bool) (raw : List Byte) :
    rawValue le raw = valueLsbFirst (normalise le raw)
      - if ((normalise le raw).getLast?.getD 0#8).getLsbD 7 then 2 ^ (8 * raw.length) else 0 := by
  cases le
  · simp [rawValue, signOfRaw, normalise, valueMsbFirst_eq_reverse]
  · simp [rawValue, signOfRaw, normalise]

/-! ### Assembly -/

theorem assembleFrom_cons (b : Byte) (bs : List Byte) :
    assembleFrom 0 (b :: bs) = b.setWidth 32 ||| assembleFrom 0 bs <<< 8 := by
  rw [assembleFrom, assembleFrom_shift]
  simp

/-- Assembly puts every byte in its own 8-bit lane (40_word_decoder.md R85). -/
theorem assembleFrom_getLsbD (bs : List Byte) (j : Nat) (hj : j < 32) :
    (assembleFrom 0 bs).getLsbD j = (bs[j / 8]?.getD 0#8).getLsbD (j % 8) := by
  induction bs generalizing j with
  | nil => simp [assembleFrom]
  | cons b bs ih =>
    rw [assembleFrom_cons, BitVec.getLsbD_or, BitVec.getLsbD_shiftLeft, BitVec.getLsbD_setWidth]
    by_cases h8 : j < 8
    · simp [h8, hj, Nat.div_eq_of_lt h8, Nat.mod_eq_of_lt h8]
    · obtain ⟨k, rfl⟩ := Nat.exists_eq_add_of_le (Nat.le_of_not_lt h8)
      have hb : b.getLsbD (8 + k) = false := BitVec.getLsbD_of_ge b _ (by omega)
      rw [hb, Nat.add_sub_cancel_left, ih k (by omega)]
      simp [hj, show (8 + k) / 8 = k / 8 + 1 by omega]

/-- The top bit of the assembled lanes is bit 7 of the last byte. -/
theorem assembleFrom_signBit {bs : List Byte} (h1 : 1 ≤ bs.length) (h4 : bs.length ≤ 4) :
    (assembleFrom 0 bs).getLsbD (8 * bs.length - 1) = (bs.getLast?.getD 0#8).getLsbD 7 := by
  rw [assembleFrom_getLsbD bs _ (by omega), List.getLast?_eq_getElem?,
    show (8 * bs.length - 1) / 8 = bs.length - 1 by omega, show (8 * bs.length - 1) % 8 = 7 by omega]

/-- No lane overflows: up to four bytes assemble to their unsigned value. -/
theorem assembleFrom_toNat {bs : List Byte} (h4 : bs.length ≤ 4) :
    ((assembleFrom 0 bs).toNat : Int) = valueLsbFirst bs := by
  induction bs with
  | nil => rfl
  | cons b bs ih =>
    rw [List.length_cons] at h4
    have hv := ih (by omega)
    have hlt : valueLsbFirst bs < 256 ^ 3 :=
      (valueLsbFirst_lt bs).trans_le (pow_le_pow_right₀ (by decide) (by omega))
    have hfit : (assembleFrom 0 bs).toNat <<< 8 < 2 ^ 32 := by rw [Nat.shiftLeft_eq]; omega
    have hcons : (assembleFrom 0 (b :: bs)).toNat = (assembleFrom 0 bs).toNat <<< 8 + b.toNat := by
      have hb : b.toNat % 2 ^ 32 = b.toNat := Nat.mod_eq_of_lt (b.isLt.trans (by decide))
      rw [assembleFrom_cons, Nat.shiftLeft_add_eq_or_of_lt b.isLt, Nat.or_comm, BitVec.toNat_or,
        BitVec.toNat_setWidth, BitVec.toNat_shiftLeft, Nat.mod_eq_of_lt hfit, hb]
    rw [hcons, valueLsbFirst, ← hv, Nat.shiftLeft_eq]
    push_cast
    ring

/-! ### Sign extension -/

/-- On a value of `w` bytes, the model's extension is the library's, from 8·w bits. -/
theorem signExtendAt_eq_signExtend {w : Nat} {u : Word} (h1 : 1 ≤ w) (hu : u.toNat < 2 ^ (8 * w)) :
    signExtendAt w u = (u.setWidth (8 * w)).signExtend 32 := by
  apply BitVec.eq_of_getLsbD_eq
  intro j hj
  rw [BitVec.getLsbD_signExtend, BitVec.msb_setWidth, BitVec.getLsbD_setWidth, signExtendAt]
  by_cases hlow : j < 8 * w
  · split <;> simp [hj, hlow]
  · have hzero : u.getLsbD j = false :=
      Nat.testBit_lt_two_pow (hu.trans_le (Nat.pow_le_pow_right (by decide) (by omega)))
    have hone : (0xFFFFFFFF#32).getLsbD (j - 8 * w) = true := by
      rw [show 0xFFFFFFFF#32 = BitVec.allOnes 32 from rfl, BitVec.getLsbD_allOnes, decide_eq_true_eq]
      omega
    have hw : 0 < 8 * w := by omega
    cases hsign : u.getLsbD (8 * w - 1)
    · simp only [Bool.false_eq_true, if_false, hzero, hlow, Bool.and_false]
    · simp only [if_true, BitVec.getLsbD_or, BitVec.getLsbD_shiftLeft, hone, hj, hlow, hw, if_false,
        decide_true, decide_false, Bool.not_false, Bool.and_true, Bool.or_true]

/-- The extension takes 2^(8·w) off a value whose top bit is set (40_word_decoder.md R85). -/
theorem signExtendAt_toInt {w : Nat} {u : Word} (h1 : 1 ≤ w) (h4 : w ≤ 4) (hu : u.toNat < 2 ^ (8 * w)) :
    (signExtendAt w u).toInt = u.toNat - if u.getLsbD (8 * w - 1) then 2 ^ (8 * w) else 0 := by
  rw [signExtendAt_eq_signExtend h1 hu, BitVec.toInt_signExtend_of_le (by omega), BitVec.toInt_eq_msb_cond,
    BitVec.msb_setWidth, BitVec.toNat_setWidth, Nat.mod_eq_of_lt hu]
  simp only [show 0 < 8 * w by omega, decide_true, Bool.true_and]
  split <;> simp

/-- A raw word of 1 to 4 bytes decodes to its two's-complement value (30_encoding.md R72). -/
theorem sampleOf_toInt {le : Bool} {raw : List Byte} (h1 : 1 ≤ raw.length) (h4 : raw.length ≤ 4) :
    (sampleOf raw.length le raw).toInt = rawValue le raw := by
  have hv := assembleFrom_toNat (bs := normalise le raw) (by simpa using h4)
  have hu : (assembleFrom 0 (normalise le raw)).toNat < 2 ^ (8 * raw.length) := by
    have := valueLsbFirst_lt (normalise le raw)
    rw [← hv, normalise_length] at this
    rw [pow_mul]
    exact_mod_cast this
  have hs := assembleFrom_signBit (bs := normalise le raw) (by simpa using h1) (by simpa using h4)
  rw [normalise_length] at hs
  rw [sampleOf, signExtendAt_toInt h1 h4 hu, rawValue_eq_normalise, hv, hs]

/-! ### `decodeWord` on a full and on a short read -/

theorem nextRaw_length {ch : Channel} (h : ch.readsShort = false) : ch.nextRaw.length = ch.width := by
  have := (Channel.not_readsShort_iff ch).1 h
  rw [Channel.nextRaw, memRead_length, ← Channel.remaining]
  omega

/-- A full read leaves the raw word's two's-complement value. -/
theorem sampleOf_nextRaw_toInt {ch : Channel} (h : ch.readsShort = false) :
    (sampleOf ch.width ch.le ch.nextRaw).toInt = rawValue ch.le ch.nextRaw := by
  have hl := nextRaw_length h
  rw [← hl]
  exact sampleOf_toInt (hl ▸ ch.width_pos) (hl ▸ ch.width_le)

variable {b : Build} {c : Chan} {s : State}

/-- `DecodeWord` with W bytes left, under every build. -/
theorem decodeWord_full (h : (s.channel c).readsShort = false) :
    decodeWord b c s = s.setChannel c
      { s.channel c with
        pos := (s.channel c).pos + (s.channel c).width, exh := false
        sample := sampleOf (s.channel c).width (s.channel c).le (s.channel c).nextRaw } := by
  rw [decodeWord, decodeChannel_full _ h, h]
  cases c <;> rfl

/-- `DecodeWord` with fewer than W bytes left, from a position within the stream (10_state.md R31). -/
theorem decodeWord_short (h : (s.channel c).readsShort = true)
    (hpos : (s.channel c).pos ≤ (s.channel c).bytes.length) :
    decodeWord b c s =
      { s.setChannel c
          { s.channel c with pos := (s.channel c).bytes.length, exh := true, sample := fillValue b s.draws } with
        draws := drawsAfter b s.draws } := by
  have hend : (s.channel c).pos + (s.channel c).remaining = (s.channel c).bytes.length := by
    rw [Channel.remaining]; omega
  rw [decodeWord, decodeChannel_short _ h, hend, h, if_pos rfl]

end Sys2Proof.Machine

namespace Sys2Proof.Proofs

open Sys2Proof.Machine

/-- Settles O14: the full read by the value of its raw word, the short read by `decodeWord_short` and the build's
fill mode. -/
theorem decodeWordReadsOneWord : Obligations.DecodeWordReadsOneWord := by
  refine ⟨rfl, ?_⟩
  rintro b c s ch w rfl rfl hpos
  have hfull := Channel.not_readsShort_iff (s.channel c)
  have hshort := Channel.readsShort_iff (s.channel c)
  rw [Channel.remaining, Channel.width] at hfull hshort
  refine ⟨fun h => ?_, fun h hz => ?_, fun h ha => ?_⟩
  · have hr := hfull.2 (by omega)
    exact ⟨_, sampleOf_nextRaw_toInt hr, decodeWord_full hr⟩
  · rw [decodeWord_short (hshort.2 (by omega)) hpos, fillValue, drawsAfter, hz]
    cases c <;> rfl
  · rw [decodeWord_short (hshort.2 (by omega)) hpos, fillValue, drawsAfter, ha]

end Sys2Proof.Proofs

end

section
/-! SUPPORT. The accesses of the register port (20_memory.md): which of them spell a transaction (R47), and what doing
one again, or the next one, does (R50). -/

namespace Sys2Proof

/-! ### Which accesses decode -/

/-- OFF[1:0] are the low bits of a header: an aligned header is its upper four bits above two zeros. -/
theorem header_of_aligned : ∀ h : Header, h.extractLsb' 0 2 = 0#2 → h = h.extractLsb' 2 4 ++ 0#2 := by decide

/-- Every aligned header spells a transaction. -/
theorem decodeHeader_aligned {h : Header} (data : Word) (ha : h.extractLsb' 0 2 = 0#2) :
    ∃ i, decodeHeader h data = .ok i := by
  have hn := op_values (h.extractLsb' 2 4)
  simp only [List.mem_cons, List.not_mem_nil, or_false] at hn
  rw [header_of_aligned h ha]
  rcases hn with hn | hn | hn | hn | hn | hn | hn | hn | hn | hn | hn | hn | hn | hn | hn | hn <;>
    exact hn ▸ ⟨_, rfl⟩

/-- No misaligned header does: the 16 headers that the decoder accepts are multiples of 4. -/
theorem decodeHeader_misaligned {h : Header} (data : Word) (hm : h.extractLsb' 0 2 ≠ 0#2) :
    decodeHeader h data = .error .misalignedOffset := by
  have hoff : h.toNat % 4 ≠ 0 := fun h0 => hm (BitVec.eq_of_toNat_eq (by simpa using h0))
  unfold decodeHeader
  split
  on_goal 17 => rfl
  all_goals omega

/-- An access spells no transaction exactly when it is narrow or misaligned (20_memory.md R47). -/
theorem decodeTransaction_error_iff (t : Transaction) :
    (∃ why, decodeTransaction t = .error why) ↔ (t.width ≠ .word ∨ t.header.extractLsb' 0 2 ≠ 0#2) := by
  obtain ⟨width, header, data⟩ := t
  cases width with
  | byte => simp [decodeTransaction]
  | half => simp [decodeTransaction]
  | word =>
    show (∃ why, decodeHeader header data = .error why) ↔ _
    by_cases ha : header.extractLsb' 0 2 = 0#2
    · obtain ⟨i, hi⟩ := decodeHeader_aligned data ha
      simp [hi, ha]
    · simp [decodeHeader_misaligned data ha, ha]

end Sys2Proof

namespace Sys2Proof.Machine

variable {s : State} {t : Transaction} {rest : List Event}

/-! ### A step whose next event is an access -/

/-- No instruction ends in a fault or a refusal: every case of `exec_cases` has a next state. -/
theorem exec_next (i : Instr) (s : State) : ∃ u, exec i s = .next u := by
  rcases exec_cases s i with ⟨h, -⟩ | ⟨-, v, h⟩ | ⟨-, h⟩ | ⟨-, -, h⟩ |
    ⟨-, ⟨-, h⟩ | ⟨-, h⟩ | ⟨-, h⟩ | ⟨-, h⟩ | ⟨-, h⟩ | ⟨v, -, h⟩⟩ <;> exact ⟨_, h⟩

/-- An access that decodes runs as its instruction. -/
theorem step_of_decodes {i : Instr} (he : s.events = .transaction t :: rest) (hd : decodeTransaction t = .ok i) :
    step s = exec i (s.withEvents rest) := by
  simp only [step, he, hd]

/-- An access that does not decode is refused. -/
theorem step_of_rejected {why : Reject} (he : s.events = .transaction t :: rest)
    (hd : decodeTransaction t = .error why) : step s = .refused (.noTransaction why) := by
  simp only [step, he, hd]

/-- The decoder alone decides whether an access is refused. -/
theorem step_refused_iff (he : s.events = .transaction t :: rest) :
    (∃ r, step s = .refused r) ↔ ∃ why, decodeTransaction t = .error why := by
  cases hd : decodeTransaction t with
  | error why => simp [step_of_rejected he hd]
  | ok i =>
    obtain ⟨u, hu⟩ := exec_next i (s.withEvents rest)
    simp [step_of_decodes he hd, hu]

/-! ### Accesses done again -/

/-- A register read has no effect but the word it returns. -/
theorem exec_of_mem_readInstrs {i : Instr} (hi : i ∈ readInstrs) (s : State) :
    ∃ v, exec i s = .next { s with returned := s.returned ++ [v] } := by
  simp only [readInstrs, List.mem_cons, List.not_mem_nil, or_false] at hi
  rcases hi with rfl | rfl | rfl | rfl | rfl | rfl | rfl | rfl <;> exact ⟨_, rfl⟩

/-- The first error is kept, so recording one again changes nothing more. -/
@[simp] theorem raiseCmdError_raiseCmdError (code : BitVec 2) (s : State) :
    raiseCmdError code (raiseCmdError code s) = raiseCmdError code s := by
  by_cases h : s.err = 0#2 <;> simp [raiseCmdError_eq, h]

/-- Under the BUSY rule an idempotent operation that leaves BUSY alone stays idempotent: a busy block records the
same error again. -/
theorem whenIdle_again {op : State → State} (hop : ∀ s, op (op s) = op s) (hbusy : ∀ s, (op s).busy = s.busy)
    {s t : State} (h : whenIdle op s = .next t) : whenIdle op t = .next t := by
  cases hb : s.busy with
  | true =>
    obtain rfl : raiseCmdError errBusy s = t := by simpa [whenIdle_busy s hb] using h
    simp [whenIdle_busy, hb]
  | false =>
    obtain rfl : op s = t := by simpa [whenIdle_idle s hb] using h
    rw [whenIdle_idle _ ((hbusy s).trans hb), hop]

/-- A CFG write done again changes nothing more, also while BUSY = 1. -/
theorem exec_wrCfg_again {v : Word} {s t : State} (h : exec (.wrCfg v) s = .next t) : exec (.wrCfg v) t = .next t :=
  whenIdle_again (op := writeCfg v) (fun _ => rfl) (writeCfg_busy · v) h

/-! ### Decode commands that read full words -/

variable {c : Chan}

/-- A DECODE command on an idle block, with W bytes left, consumes them and leaves the value of their raw word. -/
theorem exec_decodeCmd_full (hb : s.busy = false)
    (hfit : (s.channel c).pos + (s.channel c).width ≤ (s.channel c).bytes.length) :
    ∃ t v, exec c.decodeCmd s = .next t ∧ t.busy = false
      ∧ t.channel c = { s.channel c with pos := (s.channel c).pos + (s.channel c).width, exh := false, sample := v }
      ∧ v.toInt = rawValue (s.channel c).le (s.channel c).nextRaw := by
  have hr : (s.channel c).readsShort = false := by
    rw [Channel.not_readsShort_iff, Channel.remaining]; omega
  have hexec : exec c.decodeCmd s = .next (decodeWord Config.build c s) := by
    cases c <;> exact whenIdle_idle s hb
  exact ⟨_, _, hexec, by simp [hb], by rw [decodeWord_full hr, State.setChannel_channel], sampleOf_nextRaw_toInt hr⟩

/-- The second of two decodes of a channel reads the raw word that begins where the first one ended. -/
theorem exec_decodeCmd_twice (hb : s.busy = false)
    (hfit : (s.channel c).pos + 2 * (s.channel c).width ≤ (s.channel c).bytes.length) :
    ∃ t u, exec c.decodeCmd s = .next t ∧ exec c.decodeCmd t = .next u
      ∧ (u.channel c).pos = (s.channel c).pos + 2 * (s.channel c).width
      ∧ (t.channel c).sample.toInt = rawValue (s.channel c).le (s.channel c).nextRaw
      ∧ (u.channel c).sample.toInt = rawValue (s.channel c).le
          (memRead (s.channel c).bytes ((s.channel c).pos + (s.channel c).width) (s.channel c).width) := by
  obtain ⟨t, v, hst, htb, htc, hv⟩ := exec_decodeCmd_full hb (c := c) (by omega)
  have hw : (t.channel c).width = (s.channel c).width := by rw [htc]; rfl
  have hfit' : (t.channel c).pos + (t.channel c).width ≤ (t.channel c).bytes.length := by
    rw [hw, htc]; dsimp only; omega
  obtain ⟨u, v', htu, -, huc, hv'⟩ := exec_decodeCmd_full htb hfit'
  refine ⟨t, u, hst, htu, ?_, by rw [htc, hv], ?_⟩
  · rw [huc, hw, htc]; dsimp only; omega
  · rw [huc, hv', htc]; rfl

end Sys2Proof.Machine

namespace Sys2Proof.Proofs

open Sys2Proof.Machine

/-- Settles O4: a step on an access is refused exactly when the decoder rejects the access, since no instruction ends
in a refusal. -/
theorem subWordAndMisalignedAccessesAreRefused : Obligations.SubWordAndMisalignedAccessesAreRefused :=
  fun _ t _ he => (step_refused_iff he).trans (decodeTransaction_error_iff t)

/-- Settles O39: the reads and the ignored writes by their arms, CFG by `exec_wrCfg_again`, CMD by `exec_wrCmd`, and
two decodes of a channel by `exec_decodeCmd_twice`. -/
theorem sideEffectsOfAccesses : Obligations.SideEffectsOfAccesses := by
  refine ⟨fun _ => exec_of_mem_readInstrs, fun _ _ _ => exec_wrCfg_again, ?_, fun v s => exec_wrCmd s v,
    fun _ _ _ => rfl, fun _ _ _ => rfl⟩
  rintro c s _ rfl hb hfit
  exact exec_decodeCmd_twice hb hfit

end Sys2Proof.Proofs

end

section
/-! SUPPORT. A whole run (70_reset_and_hazards.md R170): what each channel has read after `k` iterations
(41_interleaver.md R106, R108), and what OUT holds then. -/

namespace Sys2Proof.Machine

/-! ### Reads of a stream that has grown -/

section
variable {m m' bs : Memory} {a n : Nat}

/-- What the stream held before is read as it was. -/
theorem memRead_of_grown (h : m <+: m') (ha : a + n ≤ m.length) : memRead m' a n = memRead m a n := by
  obtain ⟨bs, rfl⟩ := h
  exact memRead_append_left ha

theorem memByte_of_grown (h : m <+: m') (ha : a < m.length) : memByte m' a = memByte m a := by
  obtain ⟨bs, rfl⟩ := h
  exact memByte_append ha

/-- `n` bytes just appended are read back. -/
theorem memRead_append_end (hn : bs.length = n) : memRead (m ++ bs) m.length n = bs :=
  hn ▸ memRead_append_right m bs

end

/-! ### A channel after `k` decodes -/

/-- `ch'` is the channel `ch` after `k` decodes: the stream and its format are the same, and the position has moved by
`k` words, or to the end of the stream. -/
structure Channel.WordsRead (ch : Channel) (k : Nat) (ch' : Channel) : Prop where
  bytes : ch'.bytes = ch.bytes
  wsel : ch'.wsel = ch.wsel
  le : ch'.le = ch.le
  pos : ch'.pos = ch.pos + min (k * ch.width) ch.remaining

section
variable {ch ch' : Channel} {k : Nat}

theorem Channel.WordsRead.zero (ch : Channel) : ch.WordsRead 0 ch := ⟨rfl, rfl, rfl, by simp⟩

theorem Channel.WordsRead.width (h : ch.WordsRead k ch') : ch'.width = ch.width := by
  rw [Channel.width, Channel.width, h.wsel]

theorem Channel.WordsRead.remaining (h : ch.WordsRead k ch') : ch'.remaining = ch.remaining - k * ch.width := by
  have hp := h.pos
  rw [Channel.remaining] at hp ⊢
  rw [h.bytes, Channel.remaining]
  omega

/-- One decode more, whatever a short read is filled with. -/
theorem Channel.WordsRead.decode (h : ch.WordsRead k ch') (fill : Word) :
    ch.WordsRead (k + 1) (decodeChannel fill ch') := by
  refine ⟨by simp [h.bytes], by simp [h.wsel], by simp [h.le], ?_⟩
  rw [decodeChannel_pos, h.width, h.remaining, h.pos, Nat.succ_mul]
  omega

/-- Exactly the first `readable` decodes of a channel are full (41_interleaver.md R106). -/
theorem Channel.WordsRead.readsShort_iff (h : ch.WordsRead k ch') : ch'.readsShort = true ↔ ch.readable ≤ k := by
  have hw := ch.width_pos
  rw [Channel.readsShort_iff, h.remaining, h.width, Channel.readable, ← Nat.lt_succ_iff,
    Nat.div_lt_iff_lt_mul hw, Nat.succ_mul]
  omega

/-- Under FILL_MODE = ZERO the next decode puts word `k` into the channel's lane, or 0 (41_interleaver.md R108). -/
theorem Channel.WordsRead.sample (h : ch.WordsRead k ch') : (decodeChannel 0#32 ch').sample = ch.lane k := by
  have hiff := h.readsShort_iff
  cases hr : ch'.readsShort with
  | true =>
    rw [decodeChannel_short _ hr, Channel.lane, if_neg (Nat.not_lt.2 (hiff.1 hr))]
  | false =>
    have hk : k < ch.readable := by simpa [hr] using hiff
    have hfull := (Channel.not_readsShort_iff ch').1 hr
    have hpos : ch'.pos = ch.pos + k * ch.width := by
      have hw := ch.width_pos
      rw [h.remaining, h.width] at hfull
      rw [h.pos]
      omega
    rw [decodeChannel_full _ hr, Channel.lane, if_pos hk, Channel.nextRaw, h.width, h.le, h.bytes, hpos]

end

/-! ### The engine's steps -/

section
variable (b : Build) (s : State)

/-- An engine step decodes each channel once. -/
theorem engineStep_channel (c : Chan) :
    ∃ fill, (engineStep b s).channel c = decodeChannel fill (s.channel c) := by
  cases c with
  | left => exact ⟨_, engineStep_left b s⟩
  | right => exact ⟨_, engineStep_right b s⟩

/-- An engine step only appends to OUT. -/
theorem engineStep_out_grows : s.out <+: (engineStep b s).out := by
  obtain ⟨-, h⟩ | ⟨-, h⟩ := engineStep_cases b s <;> rw [h] <;> simp

/-- After `k` engine steps each channel has been decoded `k` times. -/
theorem engineSteps_wordsRead (c : Chan) (k : Nat) :
    (s.channel c).WordsRead k ((engineSteps b k s).channel c) := by
  induction k with
  | zero => exact .zero _
  | succ k ih =>
    obtain ⟨fill, h⟩ := engineStep_channel b (engineSteps b k s) c
    rw [engineSteps, h]
    exact ih.decode fill

/-- Both reads of iteration `k` are short exactly when all F frames have been written (41_interleaver.md R106). -/
theorem engineSteps_bothShort (k : Nat) :
    ((engineSteps b k s).left.readsShort && (engineSteps b k s).right.readsShort) = true ↔ s.framesToCome ≤ k := by
  have hl := (engineSteps_wordsRead b s .left k).readsShort_iff
  have hr := (engineSteps_wordsRead b s .right k).readsShort_iff
  rw [State.channel_left, State.channel_left] at hl
  rw [State.channel_right, State.channel_right] at hr
  rw [Bool.and_eq_true, hl, hr, State.framesToCome, Nat.max_le]

/-- OUT after more engine steps extends OUT after fewer. -/
theorem engineSteps_out_grows {j k : Nat} (h : j ≤ k) : (engineSteps b j s).out <+: (engineSteps b k s).out := by
  induction k, h using Nat.le_induction with
  | base => exact ⟨[], List.append_nil _⟩
  | succ k _ ih => exact ih.trans (engineStep_out_grows b _)

end

section
variable (b : Build) {s : State} {k : Nat}

/-- While frames are to come, an engine step writes one and counts it. -/
theorem engineSteps_succ (h : k < s.framesToCome) :
    engineSteps b (k + 1) s = countFrame (writeFrame b (decodeBoth b (engineSteps b k s)).left.sample
      (decodeBoth b (engineSteps b k s)).right.sample (decodeBoth b (engineSteps b k s))) := by
  have hcont := (engineSteps_bothShort b s k).not.2 (Nat.not_le.2 h)
  obtain ⟨hterm, -⟩ | ⟨-, he⟩ := engineStep_cases b (engineSteps b k s)
  · exact absurd hterm hcont
  · exact he

/-- The step after the last frame ends the run with both channels exhausted (41_interleaver.md R105, R107). -/
theorem engineSteps_last (s : State) :
    engineSteps b (s.framesToCome + 1) s =
        { decodeBoth b (engineSteps b s.framesToCome s) with busy := false, done := true }
      ∧ (engineSteps b s.framesToCome s).left.readsShort = true
      ∧ (engineSteps b s.framesToCome s).right.readsShort = true := by
  have hterm := (engineSteps_bothShort b s s.framesToCome).2 (Nat.le_refl _)
  obtain ⟨-, he⟩ | ⟨hcont, -⟩ := engineStep_cases b (engineSteps b s.framesToCome s)
  · exact ⟨he, by simpa using hterm⟩
  · rw [hterm] at hcont
    cases hcont

/-- A run goes on until its frames are written. -/
theorem engineSteps_busy (h : k ≤ s.framesToCome) : (engineSteps b k s).busy = s.busy := by
  induction k with
  | zero => rfl
  | succ k ih => simp [engineSteps_succ b h, ih (Nat.le_of_lt h)]

/-- FRAMES counts the engine steps that wrote a frame (41_interleaver.md R109). -/
theorem engineSteps_frames (h : k ≤ s.framesToCome) :
    (engineSteps b k s).frames = s.frames + BitVec.ofNat 32 k := by
  induction k with
  | zero => simp [engineSteps]
  | succ k ih => simp [engineSteps_succ b h, ih (Nat.le_of_lt h), BitVec.ofNat_add, BitVec.add_assoc]

/-- Frame `k` is appended to OUT by engine step `k + 1`, with the samples that step leaves. -/
theorem engineSteps_succ_out (h : k < s.framesToCome) :
    (engineSteps b (k + 1) s).out = (engineSteps b k s).out ++ frameBytes b.nativeOrder
      (engineSteps b (k + 1) s).left.sample (engineSteps b (k + 1) s).right.sample := by
  simp [engineSteps_succ b h]

/-- Each frame is 8 bytes (41_interleaver.md R101). -/
theorem engineSteps_out_length (h : k ≤ s.framesToCome) :
    (engineSteps b k s).out.length = s.out.length + 8 * k := by
  induction k with
  | zero => rfl
  | succ k ih =>
    rw [engineSteps_succ_out b h, List.length_append, ih (Nat.le_of_lt h), frameBytes_length]
    omega

/-- Frame `k` still lies in its place after any later step of the run. -/
theorem engineSteps_frame {n : Nat} (hk : k < s.framesToCome) (hn : k < n) :
    memRead (engineSteps b n s).out (s.out.length + 8 * k) 8 = frameBytes b.nativeOrder
      (engineSteps b (k + 1) s).left.sample (engineSteps b (k + 1) s).right.sample := by
  have hlen := engineSteps_out_length b (s := s) (Nat.le_of_lt hk)
  rw [memRead_of_grown (engineSteps_out_grows b s hn) (by rw [engineSteps_out_length b hk]; omega),
    engineSteps_succ_out b hk, ← hlen]
  exact memRead_append_end (frameBytes_length _ _ _)

end

/-! ### A run on this hardware -/

section
variable {s : State} {k : Nat}

/-- With FILL_MODE = ZERO both channels decode with fill value 0. -/
theorem engineStep_build_channel (s : State) (c : Chan) :
    (engineStep Config.build s).channel c = decodeChannel 0#32 (s.channel c) := by
  cases c with
  | left => exact engineStep_left Config.build s
  | right => exact engineStep_right Config.build s

/-- The sample after step `k + 1` is the channel's lane of frame `k`. -/
theorem engineSteps_build_sample (s : State) (k : Nat) (c : Chan) :
    ((engineSteps Config.build (k + 1) s).channel c).sample = (s.channel c).lane k := by
  rw [engineSteps, engineStep_build_channel]
  exact (engineSteps_wordsRead Config.build s c k).sample

/-- Frame `k` holds the lanes of the two channels, left first (41_interleaver.md R108; 30_encoding.md R73). -/
theorem engineSteps_build_frame {n : Nat} (hk : k < s.framesToCome) (hn : k < n) :
    memRead (engineSteps Config.build n s).out (s.out.length + 8 * k) 8 =
      frameBytes Config.nativeOrder (s.left.lane k) (s.right.lane k) := by
  have hl : (engineSteps Config.build (k + 1) s).left.sample = s.left.lane k := engineSteps_build_sample s k .left
  have hr : (engineSteps Config.build (k + 1) s).right.sample = s.right.lane k := engineSteps_build_sample s k .right
  rw [engineSteps_frame Config.build hk hn, hl, hr]
  rfl

theorem startRun_framesToCome (s : State) : (startRun s).framesToCome = s.framesToCome := rfl

/-- An accepted RUN only starts the engine (41_interleaver.md R104). -/
theorem eq_startRun_of_exec_run {t : State} (hidle : s.busy = false) (hrun : exec .run s = .next t) :
    t = startRun s := by
  have h : exec .run s = .next (startRun s) := whenIdle_idle s hidle
  simpa [h] using hrun.symm

end

end Sys2Proof.Machine

namespace Sys2Proof.Proofs

open Sys2Proof.Machine

/-- Settles O28: the first F engine steps each append a frame (`engineSteps_succ`), whose place and lanes are
`engineSteps_build_frame`'s, and the next one ends the run (`engineSteps_last`). -/
theorem runProducesTheInterleavedFrames : Obligations.RunProducesTheInterleavedFrames := by
  refine ⟨?_, fun s rest he => ⟨resetBlock (s.withEvents rest), by simp only [step, he], rfl, rfl⟩⟩
  rintro s0 s t F hidle hrun rfl rfl
  obtain rfl := eq_startRun_of_exec_run hidle hrun
  rw [← startRun_framesToCome]
  obtain ⟨hend, hl, hr⟩ := engineSteps_last Config.build (startRun s0)
  have hgrown := engineSteps_out_grows Config.build (startRun s0) (Nat.zero_le ((startRun s0).framesToCome + 1))
  refine ⟨fun k hk => engineSteps_busy Config.build hk, fun k hk => lt_max_iff.1 hk, by rw [hend], by rw [hend],
    ?exhL, ?exhR, ?frames, ?length, fun a ha => memByte_of_grown hgrown ha,
    fun k hk => engineSteps_build_frame hk (Nat.lt_succ_of_lt hk)⟩
  case exhL => simp [hend, hl]
  case exhR => simp [hend, hr]
  case frames => simp [hend, engineSteps_frames]
  case length => simp [hend, engineSteps_out_length]

end Sys2Proof.Proofs

end

section
/-! SUPPORT. The encoding (30_encoding.md): what a CMD write does word by word (R69, R70), the reserved bits of CFG
(R63, R70), the offsets that ignore writes or read 0 (R61), and the bytes of an output word (R74). -/

namespace Sys2Proof

/-- A word with RSV ≠ 0, or OP in 0x6 to 0xF, decodes to the reserved command (30_encoding.md R70). -/
theorem decodeCommand_reserved {v : Word} (h : cmdRsv v ≠ 0#28 ∨ 6#4 ≤ cmdOp v) :
    decodeCommand v = .reservedCmd v := by
  unfold decodeCommand
  split
  · rfl
  · next hrsv =>
    have hop : 6 ≤ (cmdOp v).toNat := BitVec.le_def.1 (h.resolve_left hrsv)
    split
    on_goal 7 => rfl
    all_goals omega

end Sys2Proof

namespace Sys2Proof.Machine

/-! ### CMD writes, word by word (30_encoding.md R68, R69) -/

section
variable (s : State)

theorem exec_wrCmd_reserved {v : Word} (h : cmdRsv v ≠ 0#28 ∨ 6#4 ≤ cmdOp v) :
    exec (.wrCmd v) s = .next (raiseCmdError errRsvd s) := by
  rw [exec_wrCmd, decodeCommand_reserved h]
  rfl

theorem exec_wrCmd_nop : exec (.wrCmd 0#32) s = .next s := exec_wrCmd s 0#32
theorem exec_wrCmd_decodeL : exec (.wrCmd 1#32) s = whenIdle (decodeWord Config.build .left) s := exec_wrCmd s 1#32
theorem exec_wrCmd_decodeR : exec (.wrCmd 2#32) s = whenIdle (decodeWord Config.build .right) s := exec_wrCmd s 2#32
theorem exec_wrCmd_step : exec (.wrCmd 3#32) s = whenIdle (stepOnce Config.build) s := exec_wrCmd s 3#32
theorem exec_wrCmd_run : exec (.wrCmd 4#32) s = whenIdle startRun s := exec_wrCmd s 4#32
theorem exec_wrCmd_clear : exec (.wrCmd 5#32) s = whenIdle clearStatus s := exec_wrCmd s 5#32

/-- Each of the words 1 to 5 makes the BUSY check (60_exceptions.md R143). -/
theorem exec_wrCmd_busy {v : Word} (hb : s.busy = true)
    (hv : v = 1#32 ∨ v = 2#32 ∨ v = 3#32 ∨ v = 4#32 ∨ v = 5#32) :
    exec (.wrCmd v) s = .next (raiseCmdError errBusy s) := by
  have hcmd : ∃ op, exec (.wrCmd v) s = whenIdle op s := by
    rcases hv with rfl | rfl | rfl | rfl | rfl
    · exact ⟨_, exec_wrCmd_decodeL s⟩
    · exact ⟨_, exec_wrCmd_decodeR s⟩
    · exact ⟨_, exec_wrCmd_step s⟩
    · exact ⟨_, exec_wrCmd_run s⟩
    · exact ⟨_, exec_wrCmd_clear s⟩
  obtain ⟨op, h⟩ := hcmd
  rw [h, whenIdle_busy s hb]

end

/-! ### The reserved bits of CFG (30_encoding.md R63) -/

/-- A CFG write looks at bits [2:0] and [6:4] of its word only. -/
theorem writeCfg_mask (v : Word) : writeCfg (v &&& 0x00000077#32) = writeCfg v := by
  have hl : cfgLWsel (v &&& 0x00000077#32) = cfgLWsel v := by
    rw [cfgLWsel, BitVec.extractLsb'_and]
    exact BitVec.and_allOnes
  have hr : cfgRWsel (v &&& 0x00000077#32) = cfgRWsel v := by
    rw [cfgRWsel, BitVec.extractLsb'_and]
    exact BitVec.and_allOnes
  have hle : cfgLLe (v &&& 0x00000077#32) = cfgLLe v := by simp [cfgLLe]
  have hre : cfgRLe (v &&& 0x00000077#32) = cfgRLe v := by simp [cfgRLe]
  funext s
  rw [writeCfg, hl, hle, hr, hre]
  rfl

/-- A CFG word has 0 in bits [3] and [31:7], whatever its four fields are. -/
theorem cfgword_reservedBits : ∀ (lwsel : BitVec 2) (lle : Bool) (rwsel : BitVec 2) (rle : Bool),
    cfgword (lwsel.toNat + 1) lle (rwsel.toNat + 1) rle &&& 0xFFFFFF88#32 = 0#32 := by decide

/-! ### The bytes of an output word (30_encoding.md R74) -/

/-- The bytes of a word are its base-256 digits, least significant first. -/
theorem bytesLsbFirst_of_toNat {v : Word} {b3 b2 b1 b0 : Byte}
    (h : v.toNat = b3.toNat * 2 ^ 24 + b2.toNat * 2 ^ 16 + b1.toNat * 2 ^ 8 + b0.toNat) :
    bytesLsbFirst v = [b0, b1, b2, b3] := by
  have hbyte : ∀ (i : Nat) (b : Byte), v.toNat / 2 ^ i % 2 ^ 8 = b.toNat → v.extractLsb' i 8 = b :=
    fun i b hb => BitVec.eq_of_toNat_eq (by rw [BitVec.extractLsb'_toNat, Nat.shiftRight_eq_div_pow, hb])
  have := b3.isLt
  have := b2.isLt
  have := b1.isLt
  have := b0.isLt
  rw [bytesLsbFirst, hbyte 0 b0 (by omega), hbyte 8 b1 (by omega), hbyte 16 b2 (by omega), hbyte 24 b3 (by omega)]

end Sys2Proof.Machine

namespace Sys2Proof.Proofs

open Sys2Proof.Machine

/-- Settles O7: the reserved words by `exec_wrCmd_reserved`, each other word by its equation and the BUSY rule. -/
theorem cmdWriteRunsItsCommand : Obligations.CmdWriteRunsItsCommand := by
  refine fun v s => ⟨exec_wrCmd_reserved s, ?nop, exec_wrCmd_busy s, ?decodeL, ?decodeR, ?step, ?run, ?clear⟩
  case nop => rintro rfl; exact exec_wrCmd_nop s
  case decodeL => rintro hb rfl; rw [exec_wrCmd_decodeL, whenIdle_idle s hb]
  case decodeR => rintro hb rfl; rw [exec_wrCmd_decodeR, whenIdle_idle s hb]
  case step => rintro hb rfl; rw [exec_wrCmd_step, whenIdle_idle s hb]
  case run => rintro hb rfl; rw [exec_wrCmd_run, whenIdle_idle s hb]
  case clear => rintro hb rfl; rw [exec_wrCmd_clear, whenIdle_idle s hb]

/-- Settles O9: reserved CMD words by `decodeCommand_reserved`, reserved CFG bits by `writeCfg_mask` and
`cfgword_reservedBits`. -/
theorem reservedEncodingsAreRejected : Obligations.ReservedEncodingsAreRejected := by
  refine ⟨fun v s hv => ⟨decodeCommand_reserved hv, ?_, ?_⟩, fun v s => exec_next _ s, fun v s => ?_,
    fun v s hb => ⟨writeCfg v s, whenIdle_idle s hb, writeCfg_err s v⟩,
    fun s => cfgword_reservedBits s.left.wsel s.left.le s.right.wsel s.right.le⟩
  · rw [← raiseCmdError_eq]
    rfl
  · rw [exec_wrCmd_reserved s hv, raiseCmdError_eq]
    rfl
  · show whenIdle (writeCfg v) s = whenIdle (writeCfg _) s
    rw [writeCfg_mask]

/-- Settles O38: an ignored write is `.next s` by its arm, and a read of CMD or of a reserved offset is
`returnWord 0`. -/
theorem readOnlyAndReservedOffsets : Obligations.ReadOnlyAndReservedOffsets :=
  fun _ => ⟨fun _ _ => rfl, fun _ _ => rfl, rfl, fun _ => rfl⟩

/-- Settles O45: the bytes of the word by `bytesLsbFirst_of_toNat`, in their order under LE and reversed under BE. -/
theorem outputWordBytes : Obligations.OutputWordBytes := by
  refine ⟨fun v b3 b2 b1 b0 h => ⟨bytesLsbFirst_of_toNat h, ?_⟩, rfl, rfl⟩
  rw [bytes4, bytesLsbFirst_of_toNat h]
  rfl

end Sys2Proof.Proofs

end

section
/-! SUPPORT. The Word Decoder (40_word_decoder.md): what one decode leaves in its own channel and in the other one
(R80), a channel that stands at its end (R86), the bits of a sample (R83) and its bytes (R84). -/

namespace Sys2Proof.Machine

/-! ### A decode and the two channels (40_word_decoder.md R80) -/

section
variable (b : Build) (c : Chan) (s : State)

@[simp] theorem decodeWord_channel :
    (decodeWord b c s).channel c = decodeChannel (fillValue b s.draws) (s.channel c) := by cases c <;> rfl

@[simp] theorem decodeWord_other : (decodeWord b c s).channel c.other = s.channel c.other := by cases c <;> rfl

/-- A decode reads nothing of the other channel: that channel may be replaced before or after it. -/
theorem decodeWord_setChannel_other (ch : Channel) :
    decodeWord b c (s.setChannel c.other ch) = (decodeWord b c s).setChannel c.other ch := by cases c <;> rfl

/-- A DECODE command is one decode of its channel under the BUSY rule (40_word_decoder.md R88, R89). -/
theorem exec_decodeCmd : exec c.decodeCmd s = whenIdle (decodeWord Config.build c) s := by cases c <;> rfl

end

/-! ### A channel at the end of its stream (40_word_decoder.md R86) -/

section
variable {ch : Channel}

/-- A short read leaves the channel at its end, with a partial word consumed. -/
theorem decodeChannel_short_pos (fill : Word) (h : ch.readsShort = true) (hpos : ch.pos ≤ ch.bytes.length) :
    (decodeChannel fill ch).pos = ch.bytes.length := by
  rw [decodeChannel_short fill h]
  exact Nat.add_sub_of_le hpos

theorem streamBytes_at_end (h : ch.pos = ch.bytes.length) (n : Nat) : streamBytes ch n = [] := by
  simp [streamBytes, memRead, h]

/-- At the end every read is short, whatever the width. -/
theorem readsShort_at_end (h : ch.pos = ch.bytes.length) : ch.readsShort = true := by
  rw [Channel.readsShort, streamBytes_at_end h]
  exact decide_eq_true ch.width_pos

end

/-- A decode at the end is a short read that moves nothing, under every build. -/
theorem decodeWord_at_end (b : Build) {c : Chan} {s : State}
    (h : (s.channel c).pos = (s.channel c).bytes.length) :
    ((decodeWord b c s).channel c).pos = (s.channel c).pos ∧ ((decodeWord b c s).channel c).exh = true := by
  have hshort := readsShort_at_end h
  rw [decodeWord_channel, decodeChannel_exh]
  exact ⟨(decodeChannel_short_pos _ hshort h.le).trans h.symm, hshort⟩

/-! ### The bits of a sample (40_word_decoder.md R83) -/

/-- The sign of a raw word, read off the normalised bytes. -/
theorem signOfRaw_eq_normalise (le : Bool) (raw : List Byte) :
    signOfRaw le raw = ((normalise le raw).getLast?.getD 0#8).getLsbD 7 := by
  cases le <;> simp [signOfRaw, normalise]

/-- With one byte the two orders agree (30_encoding.md R72). -/
theorem rawValue_one (le : Bool) (b : Byte) : rawValue le [b] = rawValue true [b] := by
  rw [rawValue_eq_normalise, rawValue_eq_normalise, normalise_one, normalise_one]

section
variable {le : Bool} {raw : List Byte} (h1 : 1 ≤ raw.length) (h4 : raw.length ≤ 4)
include h1 h4

/-- The sample of a raw word of W bytes is its assembled bytes, extended from 8·W bits. -/
theorem sampleOf_eq_signExtend :
    sampleOf raw.length le raw =
      ((assembleFrom 0 (normalise le raw)).setWidth (8 * raw.length)).signExtend 32 := by
  refine signExtendAt_eq_signExtend h1 ?_
  have hlt := valueLsbFirst_lt (normalise le raw)
  rw [← assembleFrom_toNat (by simpa using h4), normalise_length] at hlt
  rw [pow_mul]
  exact_mod_cast hlt

/-- Below bit 8·W the sample is the assembled bytes. -/
theorem sampleOf_getLsbD_low {k : Nat} (hk : k < 8 * raw.length) :
    (sampleOf raw.length le raw).getLsbD k = (assembleFrom 0 (normalise le raw)).getLsbD k := by
  rw [sampleOf_eq_signExtend h1 h4, BitVec.getLsbD_signExtend, if_pos hk, BitVec.getLsbD_setWidth]
  simp [hk, show k < 32 by omega]

/-- From bit 8·W-1 up every bit of the sample is the raw word's sign. -/
theorem sampleOf_getLsbD_high {k : Nat} (hk : 8 * raw.length - 1 ≤ k) (hk32 : k < 32) :
    (sampleOf raw.length le raw).getLsbD k = signOfRaw le raw := by
  have hsign : (assembleFrom 0 (normalise le raw)).getLsbD (8 * raw.length - 1) = signOfRaw le raw := by
    rw [signOfRaw_eq_normalise, ← assembleFrom_signBit (by simpa using h1) (by simpa using h4), normalise_length]
  obtain rfl | hlt := Nat.eq_or_lt_of_le hk
  · rw [sampleOf_getLsbD_low h1 h4 (by omega), hsign]
  · rw [sampleOf_eq_signExtend h1 h4, BitVec.getLsbD_signExtend, if_neg (by omega), BitVec.msb_setWidth, hsign]
    simp [hk32, show 0 < raw.length by omega]

/-- The sample lies in the range of 8·W bits. -/
theorem sampleOf_range :
    -(2 ^ (8 * raw.length - 1)) ≤ (sampleOf raw.length le raw).toInt
      ∧ (sampleOf raw.length le raw).toInt < 2 ^ (8 * raw.length - 1) := by
  rw [sampleOf_eq_signExtend h1 h4, BitVec.toInt_signExtend_of_le (by omega)]
  exact ⟨BitVec.le_toInt _, BitVec.toInt_lt⟩

end

/-! ### The bytes of a sample (40_word_decoder.md R84) -/

/-- Byte `i` of a word is its bits from 8·i. -/
theorem bytesLsbFirst_getElem (v : Word) (i : Nat) (hi : i < (bytesLsbFirst v).length) :
    (bytesLsbFirst v)[i] = v.extractLsb' (8 * i) 8 := by
  match i, hi with
  | 0, _ | 1, _ | 2, _ | 3, _ => rfl

/-- A word whose low lanes are those of the assembled `bs` has the bytes `bs` there. -/
theorem bytesLsbFirst_take {v : Word} {bs : List Byte} (h4 : bs.length ≤ 4)
    (hv : ∀ k < 8 * bs.length, v.getLsbD k = (assembleFrom 0 bs).getLsbD k) :
    (bytesLsbFirst v).take bs.length = bs := by
  refine List.ext_getElem (by simpa using h4) fun i _ hi => BitVec.eq_of_getLsbD_eq fun j hj => ?_
  rw [List.getElem_take, bytesLsbFirst_getElem, BitVec.getLsbD_extractLsb', hv _ (by omega),
    assembleFrom_getLsbD _ _ (by omega), show (8 * i + j) / 8 = i by omega, show (8 * i + j) % 8 = j by omega]
  simp [hi, hj]

/-- Re-encoding the sample of a raw word gives the raw word back. -/
theorem reencode_sampleOf {le : Bool} {raw : List Byte} (h1 : 1 ≤ raw.length) (h4 : raw.length ≤ 4) :
    reencode raw.length le (sampleOf raw.length le raw) = raw := by
  have hbytes := bytesLsbFirst_take (bs := normalise le raw) (by simpa using h4)
    fun k hk => sampleOf_getLsbD_low h1 h4 (by simpa using hk)
  rw [normalise_length] at hbytes
  rw [reencode, hbytes, normalise_normalise]

/-! ### A full read -/

/-- After a full read SAMPLE is the sample of a raw word of W bytes, 1 ≤ W ≤ 4. -/
theorem decodeWord_full_sample (b : Build) {c : Chan} {s : State}
    (hfit : (s.channel c).pos + (s.channel c).width ≤ (s.channel c).bytes.length) :
    (s.channel c).nextRaw.length = (s.channel c).width
      ∧ ((decodeWord b c s).channel c).sample =
        sampleOf (s.channel c).nextRaw.length (s.channel c).le (s.channel c).nextRaw := by
  have hr : (s.channel c).readsShort = false := by
    rw [Channel.not_readsShort_iff, Channel.remaining]; omega
  have hl := nextRaw_length hr
  exact ⟨hl, by rw [decodeWord_full hr, State.setChannel_channel, hl]⟩

end Sys2Proof.Machine

namespace Sys2Proof.Proofs

open Sys2Proof.Machine

/-- Settles O15: a DECODE command is `decodeWord` under the BUSY rule, so O14 gives both reads; one byte has one
order. -/
theorem decodeCommandsReadOneWord : Obligations.DecodeCommandsReadOneWord := by
  refine ⟨rfl, rfl, rfl, rfl, fun c s ch w hc hw =>
    ⟨fun hb => ?busy, fun hb hfit => ?full, fun hb hpos hend => ?short, fun hone hfit => ?oneByte⟩⟩
  case busy => exact (exec_decodeCmd c s).trans (whenIdle_busy s hb)
  case full =>
    obtain ⟨hfull, -, -⟩ := decodeWordReadsOneWord.2 Config.build c s ch w hc hw (by omega)
    obtain ⟨v, hv, hdecode⟩ := hfull hfit
    exact ⟨v, hv, by rw [exec_decodeCmd, whenIdle_idle s hb, hdecode]⟩
  case short =>
    obtain ⟨-, hshort, -⟩ := decodeWordReadsOneWord.2 Config.build c s ch w hc hw hpos
    rw [exec_decodeCmd, whenIdle_idle s hb, hshort hend rfl]
  case oneByte =>
    obtain ⟨x, hx⟩ := List.length_eq_one_iff.1 ((memRead_length_of_le hfit).trans hone)
    rw [hx, rawValue_one false]

/-- Settles O16: a short read leaves the channel at its end (`decodeChannel_short_pos`), and a decode
there moves nothing, whatever the format is (`decodeWord_at_end`). -/
theorem shortReadsStayAtTheEnd : Obligations.ShortReadsStayAtTheEnd := by
  intro b c s hpos hend
  have hshort : (s.channel c).readsShort = true := by
    rw [Channel.readsShort_iff, Channel.remaining]; omega
  have hstop := decodeChannel_short_pos (fillValue b s.draws) hshort hpos
  refine ⟨?pos, ?exh, ?sample, fun hany => ?draws, decodeWord_err b c s, fun wsel le u hnew => ?later⟩
  case pos => rw [decodeWord_channel, hstop]
  case exh => rw [decodeWord_channel, decodeChannel_exh, hshort]
  case sample => rw [decodeWord_channel, decodeChannel_short _ hshort]
  case draws => rw [decodeWord_short hshort hpos, drawsAfter, hany]
  case later =>
    have hu : (u.channel c).pos = (u.channel c).bytes.length := by simp [hnew, hstop]
    exact ⟨streamBytes_at_end hu _, decodeWord_at_end b hu⟩

/-- Settles O17: the bits from 8W-1 up by `sampleOf_getLsbD_high`, the range by `sampleOf_range`. -/
theorem samplesAreSignExtended : Obligations.SamplesAreSignExtended := by
  rintro b c s w v hw hfit rfl
  obtain rfl : w = (s.channel c).width := hw
  obtain ⟨hlen, hsample⟩ := decodeWord_full_sample b hfit
  have h1 : 1 ≤ (s.channel c).nextRaw.length := hlen ▸ Channel.width_pos _
  have h4 : (s.channel c).nextRaw.length ≤ 4 := hlen ▸ Channel.width_le _
  have hsign := sampleOf_getLsbD_high (le := (s.channel c).le) h1 h4 (Nat.le_refl _) (by omega)
  rw [← Channel.nextRaw, hsample, ← hlen]
  exact ⟨hsign, fun k hk hk32 => (sampleOf_getLsbD_high h1 h4 hk hk32).trans hsign.symm, sampleOf_range h1 h4⟩

/-- Settles O18: `reencode_sampleOf` undoes the decode, so it has a left inverse for each width and order. -/
theorem decodeRoundTrips : Obligations.DecodeRoundTrips := by
  refine ⟨fun b c s hfit => ?_, ?_⟩
  · obtain ⟨hlen, hsample⟩ := decodeWord_full_sample b hfit
    rw [hsample, ← Channel.nextRaw, ← hlen]
    exact reencode_sampleOf (hlen ▸ Channel.width_pos _) (hlen ▸ Channel.width_le _)
  · rintro _ le raw raw' h1 h4 rfl hlen heq
    calc raw = reencode raw.length le (sampleOf raw.length le raw) := (reencode_sampleOf h1 h4).symm
      _ = reencode raw'.length le (sampleOf raw'.length le raw') := by rw [heq, hlen]
      _ = raw' := reencode_sampleOf (hlen ▸ h1) (hlen ▸ h4)

/-- Settles O19: a decode neither changes nor reads the other channel. -/
theorem channelsAreIndependent : Obligations.ChannelsAreIndependent :=
  fun b c s other => ⟨decodeWord_other b c s, decodeWord_setChannel_other b c s other⟩

end Sys2Proof.Proofs

end

section
/-! SUPPORT. The Stereo Interleaver (41_interleaver.md): what ITERATE leaves (R100 to R102), STEP at the ends of the
streams (R103), the engine and CFG (R105), how a run ends (R106, R107), and what FRAMES can become (R109). -/

namespace Sys2Proof.Machine

/-! ### A run from an accepted RUN (41_interleaver.md R106, R107) -/

section
variable (b : Build) (s : State)

/-- Iteration `k` reads a full word of a channel exactly when `k` is below its number of readable words. -/
theorem engineSteps_succ_exh (c : Chan) (k : Nat) :
    ((engineSteps b (k + 1) s).channel c).exh = false ↔ k < (s.channel c).readable := by
  obtain ⟨fill, h⟩ := engineStep_channel b (engineSteps b k s) c
  rw [engineSteps, h, decodeChannel_exh, ← Bool.not_eq_true,
    (engineSteps_wordsRead b s c k).readsShort_iff, Nat.not_le]

/-- Through the first F engine steps BUSY = 1, and each has written and counted one frame. -/
theorem run_underway {k : Nat} (h : k ≤ s.framesToCome) :
    (engineSteps b k (startRun s)).busy = true
      ∧ (engineSteps b k (startRun s)).frames = BitVec.ofNat 32 k
      ∧ (engineSteps b k (startRun s)).out.length = s.out.length + 8 * k := by
  rw [← startRun_framesToCome] at h
  exact ⟨engineSteps_busy b h, by simp [engineSteps_frames b h], engineSteps_out_length b h⟩

/-- Engine step F + 1 ends the run and writes nothing. -/
theorem run_ended :
    (engineSteps b (s.framesToCome + 1) (startRun s)).busy = false
      ∧ (engineSteps b (s.framesToCome + 1) (startRun s)).done = true
      ∧ (engineSteps b (s.framesToCome + 1) (startRun s)).frames = BitVec.ofNat 32 s.framesToCome
      ∧ (engineSteps b (s.framesToCome + 1) (startRun s)).out.length = s.out.length + 8 * s.framesToCome := by
  obtain ⟨-, hframes, hlength⟩ := run_underway b s (Nat.le_refl _)
  obtain ⟨hlast, -⟩ := engineSteps_last b (startRun s)
  rw [startRun_framesToCome] at hlast
  rw [hlast]
  exact ⟨rfl, rfl, by simpa using hframes, by simpa using hlength⟩

end

/-! ### What ITERATE leaves (41_interleaver.md R100 to R102) -/

section
variable (b : Build) (s : State)

/-- Both decodes leave EXH = 1 exactly when both reads are short. -/
theorem decodeBoth_exh_iff :
    ((decodeBoth b s).left.exh = true ∧ (decodeBoth b s).right.exh = true)
      ↔ (s.left.readsShort && s.right.readsShort) = true := by
  simp

/-- ITERATE terminates when both decodes leave their channels exhausted; otherwise it appends the frame of the two
samples to OUT and counts it. -/
theorem iterate_cases :
    (((decodeBoth b s).left.exh = true ∧ (decodeBoth b s).right.exh = true)
      ∧ iterate b s = (.terminated, decodeBoth b s))
    ∨ (¬ ((decodeBoth b s).left.exh = true ∧ (decodeBoth b s).right.exh = true)
      ∧ iterate b s = (.continues, { decodeBoth b s with
          out := s.out ++ frameBytes b.nativeOrder (decodeBoth b s).left.sample (decodeBoth b s).right.sample
          frames := s.frames + 1 })) := by
  rw [decodeBoth_exh_iff]
  cases h : (s.left.readsShort && s.right.readsShort)
  · exact .inr ⟨Bool.false_ne_true, by simp [iterate_continues b s h, countFrame_writeFrame]⟩
  · exact .inl ⟨rfl, iterate_terminated b s h⟩

@[simp] theorem iterate_left : (iterate b s).2.left = (decodeBoth b s).left := by
  obtain ⟨-, h⟩ | ⟨-, h⟩ := iterate_cases b s <;> rw [h]

@[simp] theorem iterate_right : (iterate b s).2.right = (decodeBoth b s).right := by
  obtain ⟨-, h⟩ | ⟨-, h⟩ := iterate_cases b s <;> rw [h]

@[simp] theorem iterate_busy : (iterate b s).2.busy = s.busy := by
  obtain ⟨-, h⟩ | ⟨-, h⟩ := iterate_cases b s <;> simp [h]

/-- ITERATE decodes each channel once. -/
theorem iterate_channel (c : Chan) : ∃ fill, (iterate b s).2.channel c = decodeChannel fill (s.channel c) := by
  cases c with
  | left => exact ⟨_, iterate_left b s⟩
  | right => exact ⟨_, iterate_right b s⟩

variable {b s}

theorem eq_decodeBoth_of_iterate_terminated {t : State} (h : iterate b s = (.terminated, t)) : t = decodeBoth b s := by
  obtain ⟨-, e⟩ | ⟨-, e⟩ := iterate_cases b s <;> rw [e] at h <;> cases h
  rfl

theorem frames_of_iterate_continues {t : State} (h : iterate b s = (.continues, t)) : t.frames = s.frames + 1 := by
  obtain ⟨-, e⟩ | ⟨-, e⟩ := iterate_cases b s <;> rw [e] at h <;> cases h
  rfl

/-- Unless both channels are then exhausted, the frame holds the samples that ITERATE leaves. -/
theorem iterate_out (h : ¬ ((iterate b s).2.left.exh = true ∧ (iterate b s).2.right.exh = true)) :
    (iterate b s).2.out =
      s.out ++ frameBytes b.nativeOrder (iterate b s).2.left.sample (iterate b s).2.right.sample := by
  rw [iterate_left, iterate_right] at h ⊢
  obtain ⟨hexh, -⟩ | ⟨-, e⟩ := iterate_cases b s
  · exact absurd hexh h
  · rw [e]

end

/-! ### The fill value of a short channel (41_interleaver.md R102) -/

theorem fillValue_eq (b : Build) (draws : Nat) :
    fillValue b draws = if b.fillMode = .zero then 0#32 else Config.draw32 draws := by
  rw [fillValue]
  cases b.fillMode <;> rfl

/-- A decode at the end of the stream changes SAMPLE and EXH only. -/
theorem decodeChannel_at_end (fill : Word) {ch : Channel} (h : ch.pos = ch.bytes.length) :
    decodeChannel fill ch = { ch with exh := true, sample := fill } := by
  have hrem : ch.remaining = 0 := Nat.sub_eq_zero_of_le h.ge
  rw [decodeChannel_short fill (readsShort_at_end h), hrem]
  rfl

section
variable {b : Build} {s : State}

/-- A short left channel takes the next fill value. -/
theorem decodeBoth_left_short_sample (hl : s.left.readsShort = true) :
    (decodeBoth b s).left.sample = fillValue b s.draws := by
  rw [decodeBoth_left, decodeChannel_short _ hl]

/-- A short right channel takes the next fill value too, for the full left read has drawn none. -/
theorem decodeBoth_right_short_sample (hl : s.left.readsShort = false) (hr : s.right.readsShort = true) :
    (decodeBoth b s).right.sample = fillValue b s.draws := by
  have hdraws : (decodeWord b .left s).draws = s.draws := by
    rw [decodeWord_full (c := .left) hl, State.setChannel_draws]
  rw [decodeBoth_right, decodeChannel_short _ hr, hdraws]

end

/-! ### STEP on this hardware (41_interleaver.md R103) -/

/-- Both channels take fill value 0, and nothing is drawn. -/
theorem decodeBoth_build (s : State) :
    decodeBoth Config.build s =
      { s with left := decodeChannel 0#32 s.left, right := decodeChannel 0#32 s.right } := by
  rw [decodeBoth, decodeWord_build, decodeWord_build]
  rfl

section
variable {s : State}

theorem exec_step_idle (hb : s.busy = false) : exec .step s = .next (stepOnce Config.build s) :=
  whenIdle_idle s hb

theorem stepOnce_exhausted (b : Build)
    (h : (decodeBoth b s).left.exh = true ∧ (decodeBoth b s).right.exh = true) :
    stepOnce b s = { decodeBoth b s with done := true } := by
  rw [stepOnce, iterate_terminated b s ((decodeBoth_exh_iff b s).1 h)]

theorem stepOnce_frame (b : Build)
    (h : ¬ ((decodeBoth b s).left.exh = true ∧ (decodeBoth b s).right.exh = true)) :
    stepOnce b s = { decodeBoth b s with
      done := false
      out := s.out ++ frameBytes b.nativeOrder (decodeBoth b s).left.sample (decodeBoth b s).right.sample
      frames := s.frames + 1 } := by
  obtain ⟨hexh, -⟩ | ⟨-, e⟩ := iterate_cases b s
  · exact absurd hexh h
  · rw [stepOnce, e]

/-- With both streams at their end STEP sets the flags and puts 0 into the samples. -/
theorem stepOnce_at_end (hl : s.left.pos = s.left.bytes.length) (hr : s.right.pos = s.right.bytes.length) :
    stepOnce Config.build s = { s with
      left := { s.left with exh := true, sample := 0#32 }
      right := { s.right with exh := true, sample := 0#32 }
      done := true } := by
  have hboth := decodeBoth_build s
  rw [decodeChannel_at_end _ hl, decodeChannel_at_end _ hr] at hboth
  rw [stepOnce_exhausted Config.build (by simp [hboth]), hboth]

end

/-! ### CFG during a run (41_interleaver.md R105) -/

/-- The engine's turn leaves CFG as it is. -/
theorem engineTurn_cfgWord (b : Build) (s : State) : (engineTurn b s).cfgWord = s.cfgWord := by
  unfold engineTurn
  split
  · simp [State.cfgWord]
  · rfl

/-- While BUSY = 1 an instruction reaches neither channel. -/
theorem exec_busy_channels {i : Instr} {s t : State} (hb : s.busy = true) (h : exec i s = .next t) :
    t.left = s.left ∧ t.right = s.right := by
  obtain ⟨e, -⟩ | ⟨-, v, e⟩ | ⟨-, e⟩ | ⟨-, -, e⟩ | ⟨hidle, -⟩ := exec_cases s i
  case inr.inr.inr.inr => cases hb.symm.trans hidle
  all_goals obtain rfl := Host.Outcome.next.inj (e.symm.trans h)
  · exact ⟨rfl, rfl⟩
  · exact ⟨rfl, rfl⟩
  · exact ⟨raiseCmdError_left s _, raiseCmdError_right s _⟩
  · exact ⟨raiseCmdError_left s _, raiseCmdError_right s _⟩

/-! ### What FRAMES can become (41_interleaver.md R109) -/

section
variable (b : Build) (s : State)

theorem engineTurn_frames : (engineTurn b s).frames = s.frames ∨ (engineTurn b s).frames = s.frames + 1#32 := by
  unfold engineTurn
  split
  · obtain ⟨-, e⟩ | ⟨-, e⟩ := engineStep_cases b s <;> simp [e]
  · exact .inl rfl

theorem stepOnce_frames : (stepOnce b s).frames = s.frames ∨ (stepOnce b s).frames = s.frames + 1#32 := by
  obtain ⟨-, e⟩ | ⟨-, e⟩ := stepOnce_cases b s <;> simp [e]

variable {s}

/-- An instruction leaves FRAMES, counts it on, or is RUN or CLEAR and sets it to 0. -/
theorem exec_frames {i : Instr} {t : State} (h : exec i s = .next t) :
    t.frames = s.frames ∨ t.frames = s.frames + 1#32
      ∨ t.frames = 0#32 ∧ (commandOf i = .run ∨ commandOf i = .clear) := by
  rcases exec_cases s i with ⟨e, -⟩ | ⟨-, v, e⟩ | ⟨-, e⟩ | ⟨-, -, e⟩ |
    ⟨-, ⟨-, e⟩ | ⟨-, e⟩ | ⟨-, e⟩ | ⟨hrun, e⟩ | ⟨hclear, e⟩ | ⟨v, -, e⟩⟩ <;>
    obtain rfl := Host.Outcome.next.inj (e.symm.trans h)
  · exact .inl rfl
  · exact .inl rfl
  · exact .inl (raiseCmdError_frames s _)
  · exact .inl (raiseCmdError_frames s _)
  · exact .inl (decodeWord_frames _ .left s)
  · exact .inl (decodeWord_frames _ .right s)
  · exact (stepOnce_frames _ s).imp_right .inl
  · exact .inr (.inr ⟨startRun_frames s, .inl hrun⟩)
  · exact .inr (.inr ⟨clearStatus_frames s, .inr hclear⟩)
  · exact .inl (writeCfg_frames s v)

end

end Sys2Proof.Machine

namespace Sys2Proof.Proofs

open Sys2Proof.Machine

/-- Settles O27: `run_underway` for the first F steps, `engineSteps_succ_exh` for the reads of each iteration, and
`run_ended` for step F + 1. -/
theorem runWritesTheMaximumOfTheReadableWords : Obligations.RunWritesTheMaximumOfTheReadableWords := by
  intro b s0 s F hidle hrun hF
  obtain rfl := eq_startRun_of_exec_run hidle hrun
  obtain rfl : F = s0.framesToCome := hF
  exact ⟨fun k hk => run_underway b s0 hk, fun j _ c => by cases c <;> exact engineSteps_succ_exh b (startRun s0) _ j,
    run_ended b s0⟩

/-- Settles O21: the two cases of `iterate_cases`. -/
theorem iterateDecodesBothAndWritesAFrame : Obligations.IterateDecodesBothAndWritesAFrame := by
  rintro b s _ rfl
  rw [← decodeBoth]
  obtain ⟨hexh, h⟩ | ⟨hnot, h⟩ := iterate_cases b s
  · exact ⟨fun _ => h, fun hnot => absurd hexh hnot⟩
  · exact ⟨fun hexh => absurd hexh hnot, fun _ => ⟨by rw [h, decodeBoth_out, decodeBoth_frames]; rfl, by simp [h]⟩⟩

/-- Settles O22: each channel is as its decode leaves it, whose fill value is the next one when the other channel's
read is full. -/
theorem exhaustedChannelsAreStillRead : Obligations.ExhaustedChannelsAreStillRead := by
  rintro b s _ rfl
  refine ⟨iterate_left b s, iterate_right b s, fun c hend => ?atEnd, fun hl hr => ?leftShort, fun hl hr => ?rightShort⟩
  case atEnd =>
    obtain ⟨fill, h⟩ := iterate_channel b s c
    rw [h, decodeChannel_at_end fill hend]
  case leftShort =>
    rw [← Channel.readsShort_iff] at hl
    rw [← Channel.not_readsShort_iff] at hr
    rw [← fillValue_eq, ← decodeBoth_left_short_sample hl]
    exact ⟨by rw [iterate_left], iterate_out (by simp [hr])⟩
  case rightShort =>
    rw [← Channel.not_readsShort_iff] at hl
    rw [← Channel.readsShort_iff] at hr
    rw [← fillValue_eq, ← decodeBoth_right_short_sample hl hr]
    exact ⟨by rw [iterate_right], iterate_out (by simp [hl])⟩

/-- Settles O23: STEP is `stepOnce` under the BUSY rule; its two results and its result at both streams' ends are
lemmas, and a lane at its end is a short read that fills with 0. -/
theorem stepCommandRunsOneIteration : Obligations.StepCommandRunsOneIteration := by
  refine ⟨rfl, fun s t ht => ?_⟩
  obtain rfl : t = decodeBoth Config.build s := ht
  refine ⟨whenIdle_busy s, fun hb hexh => ?terminated, fun hb hnot => ?continues, fun hb hl hr => ?bothAtEnd,
    fun hb hl hr => ?leftAtEnd, fun hb hl hr => ?rightAtEnd⟩
  case terminated => rw [exec_step_idle hb, stepOnce_exhausted _ hexh]
  case continues => rw [exec_step_idle hb, stepOnce_frame _ hnot]; rfl
  case bothAtEnd =>
    refine ⟨_, exec_step_idle hb, ?_⟩
    rw [stepOnce_at_end hl hr]
    refine ⟨rfl, rfl, rfl, ?_⟩
    rw [exec_step_idle (by exact hb), stepOnce_at_end (by exact hl) (by exact hr)]
  case leftAtEnd =>
    refine ⟨_, exec_step_idle hb, ?_⟩
    have hfull := (Channel.not_readsShort_iff _).2 hr
    rw [stepOnce_frame _ (by simp [hfull]), decodeBoth_left_short_sample (readsShort_at_end hl)]
    exact ⟨rfl, rfl⟩
  case rightAtEnd =>
    refine ⟨_, exec_step_idle hb, ?_⟩
    have hfull := (Channel.not_readsShort_iff _).2 hl
    rw [stepOnce_frame _ (by simp [hfull]), decodeBoth_right_short_sample hfull (readsShort_at_end hr)]
    exact ⟨rfl, rfl⟩

/-- Settles O25: the engine's turn by its definition, CFG by `engineTurn_cfgWord` and `exec_busy_channels`. -/
theorem engineStepIteratesWhileBusy : Obligations.EngineStepIteratesWhileBusy := by
  refine ⟨fun b s hb => ?idle, fun b s t hb h => ?terminated, fun b s t hb h => ?continues, engineTurn_cfgWord,
    fun i s t hb h => ?instruction⟩
  case idle => simp [engineTurn, hb]
  case terminated => simp [engineTurn, engineStep, hb, h]
  case continues =>
    have hbusy := iterate_busy b s
    rw [h, hb] at hbusy
    exact ⟨by simp [engineTurn, engineStep, hb, h], hbusy⟩
  case instruction =>
    obtain ⟨hl, hr⟩ := exec_busy_channels hb h
    rw [State.cfgWord, hl, hr, State.cfgWord]

/-- Settles O29: the exhausted iteration by `iterate_terminated`, the engine's step by its two cases, and the run of
equal channels by `run_underway` and `run_ended` at F = N. -/
theorem noFrameWhenBothAreExhausted : Obligations.NoFrameWhenBothAreExhausted := by
  refine ⟨?noFrame, ?endsRun, ?equalRun⟩
  case noFrame =>
    rintro b s _ rfl hl hr
    rw [iterate_left] at hl
    rw [iterate_right] at hr
    rw [iterate_terminated b s ((decodeBoth_exh_iff b s).1 ⟨hl, hr⟩)]
    exact ⟨decodeBoth_out b s, decodeBoth_frames b s⟩
  case endsRun =>
    rintro b s _ hb rfl
    rw [engineStep_left, engineStep_right, decodeChannel_exh, decodeChannel_exh, ← Bool.and_eq_true]
    obtain ⟨hshort, h⟩ | ⟨hfull, h⟩ := engineStep_cases b s
    · simp [h, hshort]
    · simp [h, hfull, hb]
  case equalRun =>
    rintro b s0 s N hidle hrun hl hr
    obtain rfl := eq_startRun_of_exec_run hidle hrun
    obtain rfl : s0.framesToCome = N := by rw [State.framesToCome, hl, hr, Nat.max_self]
    obtain ⟨hbusy, -, hframes, hlength⟩ := run_ended b s0
    exact ⟨fun k hk => (run_underway b s0 hk).1, hbusy, hlength, hframes⟩

/-- Settles O30: an iteration by its result, a step of the machine by its cases, and its instruction by
`exec_frames`. -/
theorem framesCountsModulo : Obligations.FramesCountsModulo := by
  refine ⟨fun b s t h => ?continues, fun b s t h => ?terminated, fun s t h => ?step⟩
  case continues => rw [frames_of_iterate_continues h]; exact BitVec.toNat_add _ _
  case terminated => rw [eq_decodeBoth_of_iterate_terminated h, decodeBoth_frames]
  case step =>
    obtain ⟨-, rfl⟩ | ⟨e, rest, he, ⟨-, rfl⟩ | ⟨rfl, rfl⟩ | ⟨streams, -, hsupply⟩ | ⟨tr, i, rfl, hdecode, hexec⟩⟩ :=
      step_cases s h
    · exact (engineTurn_frames _ s).imp_right .inl
    · exact (engineTurn_frames _ (s.withEvents rest)).imp_right .inl
    · exact .inr (.inr ⟨rfl, .inl ⟨rest, he⟩⟩)
    · obtain ⟨-, -, -, rfl⟩ := supplyStreams_cases _ hsupply
      exact .inl rfl
    · obtain hsame | hcount | ⟨hzero, hcmd⟩ := exec_frames hexec
      · exact .inl hsame
      · exact .inr (.inl hcount)
      · exact .inr (.inr ⟨hzero, .inr ⟨tr, rest, i, he, hdecode, hcmd⟩⟩)

end Sys2Proof.Proofs

end

section
/-! SUPPORT. The control commands and the registers (42_control.md): what CFG reads as after a write (R122), the reserved
bits of STATUS (R124), and which instruction clears a recorded error (R121). -/

namespace Sys2Proof.Machine

/-! ### The CFG and STATUS words (30_encoding.md R63, R65) -/

/-- The CFG word is its four fields at their places, with 0 in the reserved bits. -/
theorem cfgword_eq_append : ∀ (lwsel : BitVec 2) (lle : Bool) (rwsel : BitVec 2) (rle : Bool),
    cfgword (lwsel.toNat + 1) lle (rwsel.toNat + 1) rle
      = 0#25 ++ (BitVec.ofBool rle ++ (rwsel ++ (0#1 ++ (BitVec.ofBool lle ++ lwsel)))) := by decide

/-- After a CFG write of `v`, CFG reads as `v` with the reserved bits 0: bit by bit, a field's bit is the bit of `v`
that the write put there. -/
theorem writeCfg_cfgWord (v : Word) (s : State) : (writeCfg v s).cfgWord = v &&& 0x00000077#32 := by
  have hfields : (writeCfg v s).cfgWord
      = 0#25 ++ (BitVec.ofBool (cfgRLe v) ++ (cfgRWsel v ++ (0#1 ++ (BitVec.ofBool (cfgLLe v) ++ cfgLWsel v)))) :=
    cfgword_eq_append _ _ _ _
  rw [hfields]
  apply BitVec.eq_of_getLsbD_eq
  intro i hi
  simp only [BitVec.getLsbD_append, cfgRLe, cfgRWsel, cfgLLe, cfgLWsel]
  interval_cases i <;> simp

/-- A STATUS word has 0 in bits [31:6], whatever its five fields are. -/
theorem State.statusWord_reservedBits (s : State) : s.statusWord &&& 0xFFFFFFC0#32 = 0#32 := by
  have hfields : ∀ (busy done exhL exhR : Bool) (err : BitVec 2),
      (bitWord busy ||| (bitWord done <<< 1) ||| (bitWord exhL <<< 2) ||| (bitWord exhR <<< 3)
        ||| (err.setWidth 32 <<< 4)) &&& 0xFFFFFFC0#32 = 0#32 := by decide
  exact hfields s.busy s.done s.left.exh s.right.exh s.err

/-! ### A recorded error (42_control.md R121) -/

section
variable {s : State}

/-- STEP's iteration raises no error and clears none. -/
@[simp] theorem stepOnce_err (b : Build) : (stepOnce b s).err = s.err := by
  obtain ⟨-, e⟩ | ⟨-, e⟩ := stepOnce_cases b s <;> simp [e]

/-- Once an error is recorded it is not raised over. -/
theorem raiseCmdError_of_err {code : BitVec 2} (herr : s.err ≠ 0#2) : raiseCmdError code s = s := if_neg herr

/-- An instruction leaves a recorded error as it is, or is a CLEAR on an idle block. -/
theorem exec_recorded_err {i : Instr} {t : State} (herr : s.err ≠ 0#2) (h : exec i s = .next t) :
    t.err = s.err ∨ t.err = 0#2 ∧ s.busy = false ∧ commandOf i = .clear := by
  rcases exec_cases s i with ⟨e, -⟩ | ⟨-, v, e⟩ | ⟨-, e⟩ | ⟨-, -, e⟩ |
    ⟨hidle, ⟨-, e⟩ | ⟨-, e⟩ | ⟨-, e⟩ | ⟨-, e⟩ | ⟨hclear, e⟩ | ⟨v, -, e⟩⟩ <;>
    obtain rfl := Host.Outcome.next.inj (e.symm.trans h)
  · exact .inl rfl
  · exact .inl rfl
  · exact .inl (by rw [raiseCmdError_of_err herr])
  · exact .inl (by rw [raiseCmdError_of_err herr])
  · exact .inl (decodeWord_err _ .left s)
  · exact .inl (decodeWord_err _ .right s)
  · exact .inl (stepOnce_err _)
  · exact .inl (startRun_err s)
  · exact .inr ⟨clearStatus_err s, hidle, hclear⟩
  · exact .inl (writeCfg_err s v)

/-- The BUSY rule's rejection, with ERR written out (60_exceptions.md R143, R146). -/
theorem whenIdle_busy_eq {op : State → State} (hb : s.busy = true) :
    whenIdle op s = .next { s with err := if s.err = 0#2 then 2#2 else s.err } := by
  rw [whenIdle_busy s hb, raiseCmdError_eq]
  rfl

end

end Sys2Proof.Machine

namespace Sys2Proof.Proofs

open Sys2Proof.Machine

/-- Settles O34: CLEAR is `clearStatus` under the BUSY rule, and by `exec_recorded_err` an instruction that is not CLEAR
leaves a recorded error. -/
theorem clearResetsStatusCounterAndSamples : Obligations.ClearResetsStatusCounterAndSamples := by
  refine ⟨rfl, fun _ => whenIdle_busy_eq (op := clearStatus), fun s => whenIdle_idle (op := clearStatus) s,
    fun i s t h herr hzero => ?onlyClear⟩
  case onlyClear =>
    obtain hkept | ⟨-, -, hclear⟩ := exec_recorded_err herr h
    · exact absurd (hkept.symm.trans hzero) herr
    · exact hclear

/-- Settles O35: WR CFG is `writeCfg` under the BUSY rule, and `writeCfg_cfgWord` says what CFG then reads as. -/
theorem writeCfgSetsTheFourFields : Obligations.WriteCfgSetsTheFourFields := by
  refine ⟨fun _ => rfl, fun v _ => whenIdle_busy_eq (op := writeCfg v), fun v s => whenIdle_idle (op := writeCfg v) s,
    fun v s t hb h => ?readBack⟩
  case readBack =>
    obtain rfl : writeCfg v s = t := Host.Outcome.next.inj ((whenIdle_idle s hb).symm.trans h)
    exact writeCfg_cfgWord v s

/-- Settles O33: NOP by its arm, the CMD write of 0 by `exec_wrCmd_nop`, and a word with RSV ≠ 0 as a reserved one. -/
theorem nopChangesNothing : Obligations.NopChangesNothing :=
  ⟨rfl, fun s => ⟨rfl, exec_wrCmd_nop s⟩,
    fun _ _ hrsv => ⟨decodeCommand_reserved (.inl hrsv), fun s => exec_wrCmd_reserved s (.inl hrsv)⟩⟩

/-- Settles O36: each read is `returnWord` of its register by its arm; the reserved bits by `cfgword_reservedBits` and
`State.statusWord_reservedBits`. -/
theorem readsReturnTheRegisters : Obligations.ReadsReturnTheRegisters := fun s =>
  ⟨rfl, cfgword_reservedBits s.left.wsel s.left.le s.right.wsel s.right.le, rfl, s.statusWord_reservedBits,
    rfl, rfl, rfl⟩

end Sys2Proof.Proofs

end

section
/-! SUPPORT. Errors (60_exceptions.md): what an instruction can do while BUSY = 1 (R143), that a rejected access leaves the
run where it stands (R142), and that a step keeps a recorded error (R147). -/

namespace Sys2Proof.Machine

variable {s t : State}

/-! ### States that a run cannot tell apart (60_exceptions.md R142) -/

/-- The same run in another state: ERR, the returned words and the events are all that may differ. -/
theorem SameRun.exists_eq (h : SameRun s t) :
    ∃ e r es, t = { s with err := e, returned := r, events := es } := by
  obtain ⟨left, right, busy, done, err, frames, out, returned, draws, events⟩ := t
  obtain ⟨rfl, rfl, rfl, rfl, rfl, rfl, rfl⟩ := h
  exact ⟨err, returned, events, rfl⟩

theorem SameRun.cfgWord_eq (h : SameRun s t) : t.cfgWord = s.cfgWord := by
  rw [State.cfgWord, h.left, h.right, State.cfgWord]

/-- An engine step reads nothing but the run, so it leaves the same run again. -/
theorem engineStep_sameRun (b : Build) (h : SameRun s t) : SameRun (engineStep b s) (engineStep b t) := by
  have hreads : (t.left.readsShort && t.right.readsShort) = (s.left.readsShort && s.right.readsShort) := by
    rw [h.left, h.right]
  obtain ⟨e, r, es, ht⟩ := h.exists_eq
  unfold engineStep
  cases hshort : s.left.readsShort && s.right.readsShort with
  | true =>
    rw [iterate_terminated b s hshort, iterate_terminated b t (hreads.trans hshort), ht]
    exact ⟨rfl, rfl, rfl, rfl, rfl, rfl, rfl⟩
  | false =>
    rw [iterate_continues b s hshort, iterate_continues b t (hreads.trans hshort), ht]
    exact ⟨rfl, rfl, rfl, rfl, rfl, rfl, rfl⟩

theorem engineSteps_sameRun (b : Build) (n : Nat) (h : SameRun s t) :
    SameRun (engineSteps b n s) (engineSteps b n t) := by
  induction n with
  | zero => exact h
  | succ n ih => exact engineStep_sameRun b ih

/-! ### Instructions while BUSY = 1 (60_exceptions.md R143) -/

/-- A command that makes the BUSY check is rejected. -/
theorem exec_command_busy {i : Instr} (hb : s.busy = true) (hi : i ∈ [.decodeL, .decodeR, .step, .run, .clear]) :
    exec i s = .next (raiseCmdError errBusy s) := by
  have hguard : ∃ op, exec i s = whenIdle op s := by
    simp only [List.mem_cons, List.not_mem_nil, or_false] at hi
    rcases hi with rfl | rfl | rfl | rfl | rfl <;> exact ⟨_, rfl⟩
  obtain ⟨op, h⟩ := hguard
  rw [h, whenIdle_busy s hb]

/-- An instruction changes at most ERR, or it returns one word. -/
theorem exec_busy_cases (i : Instr) (hb : s.busy = true) :
    (∃ e, exec i s = .next { s with err := e }) ∨ ∃ v, exec i s = .next { s with returned := s.returned ++ [v] } := by
  obtain ⟨h, -⟩ | ⟨-, hread⟩ | ⟨-, h⟩ | ⟨-, -, h⟩ | ⟨hidle, -⟩ := exec_cases s i
  · exact .inl ⟨s.err, h⟩
  · exact .inr hread
  · exact .inl ⟨_, by rw [h, raiseCmdError_eq]⟩
  · exact .inl ⟨_, by rw [h, raiseCmdError_eq]⟩
  · cases hb.symm.trans hidle

/-- So an instruction leaves a run in progress where it stands. -/
theorem exec_busy_sameRun {i : Instr} (hb : s.busy = true) (h : exec i s = .next t) : SameRun s t := by
  obtain ⟨e, he⟩ | ⟨v, he⟩ := exec_busy_cases i hb <;> obtain rfl := Host.Outcome.next.inj (he.symm.trans h)
  · exact ⟨rfl, rfl, rfl, rfl, rfl, rfl, rfl⟩
  · exact ⟨rfl, rfl, rfl, rfl, rfl, rfl, rfl⟩

/-! ### ERR over a step (60_exceptions.md R147) -/

@[simp] theorem engineTurn_err (b : Build) (s : State) : (engineTurn b s).err = s.err := by
  unfold engineTurn
  split
  · exact engineStep_err b s
  · rfl

end Sys2Proof.Machine

namespace Sys2Proof.Proofs

open Sys2Proof.Machine

/-- Settles O10: the rejected commands by `exec_command_busy`, a CMD write as the command it carries, and by
`exec_busy_sameRun` no instruction touches BUSY or CFG. -/
theorem busyRule : Obligations.BusyRule := by
  refine fun s hb => ⟨fun _ => exec_command_busy hb, fun v hv => ?cmdWrite, fun _ => whenIdle_busy s hb,
    fun v hv => ?reserved, rfl, exec_wrCmd_nop s, fun _ hi => exec_of_mem_readInstrs hi s, fun _ _ => rfl,
    fun _ _ => rfl, fun i t h => ?kept⟩
  case cmdWrite => rw [exec_wrCmd]; exact exec_command_busy hb (by simpa using hv)
  case reserved => rw [exec_wrCmd, hv]; rfl
  case kept =>
    have hrun := exec_busy_sameRun hb h
    exact ⟨hrun.busy.trans hb, hrun.cfgWord_eq⟩

/-- Settles O11: a reserved word by `raiseCmdError_eq`, an access while BUSY = 1 by `exec_busy_cases`, and the run after
it by `engineSteps_sameRun`. -/
theorem rejectedOperationsArePrecise : Obligations.RejectedOperationsArePrecise := by
  refine ⟨fun w s => ⟨_, congrArg Host.Outcome.next (raiseCmdError_eq s errRsvd)⟩, fun i _ => exec_busy_cases i,
    fun b i s t n hb h => ?run⟩
  case run =>
    have hrun := exec_busy_sameRun hb h
    exact ⟨hrun, engineSteps_sameRun b n hrun⟩

/-- Settles O12: an engine turn and a supply keep ERR, a reset clears it, and an access does what `exec_recorded_err`
says of its instruction. -/
theorem onlyClearAndResetClearErr : Obligations.OnlyClearAndResetClearErr := by
  refine ⟨fun _ _ => raiseCmdError_of_err, fun s t h herr => ?step⟩
  case step =>
    obtain ⟨-, rfl⟩ | ⟨e, rest, he, ⟨-, rfl⟩ | ⟨rfl, rfl⟩ | ⟨streams, -, hsupply⟩ | ⟨tr, i, rfl, hdecode, hexec⟩⟩ :=
      step_cases s h
    · exact .inl (engineTurn_err _ s)
    · exact .inl (engineTurn_err _ (s.withEvents rest))
    · exact .inr ⟨rfl, .inl ⟨rest, he⟩⟩
    · obtain ⟨-, -, -, rfl⟩ := supplyStreams_cases _ hsupply
      exact .inl rfl
    · obtain hkept | ⟨hzero, hidle, hclear⟩ := exec_recorded_err (s := s.withEvents rest) herr hexec
      · exact .inl hkept
      · exact .inr ⟨hzero, .inr ⟨hidle, tr, rest, i, he, hdecode, hclear⟩⟩

/-- Settles O8: the two branches of `raiseCmdError`. -/
theorem raiseRecordsTheFirstError : Obligations.RaiseRecordsTheFirstError :=
  fun _ _ => ⟨fun hzero => if_pos hzero, raiseCmdError_of_err⟩

end Sys2Proof.Proofs

end

section
/-! SUPPORT. Reset (70_reset_and_hazards.md R160): the step that takes it, and the engine with no run in progress. -/

namespace Sys2Proof.Machine

/-- A pending reset is the step's whole effect, whatever the state (70_reset_and_hazards.md R160). -/
theorem step_of_reset {s : State} {rest : List Event} (he : s.events = .reset :: rest) :
    step s = .next (resetBlock (s.withEvents rest)) := by
  simp only [step, he]

/-- With BUSY = 0 the engine's turn changes nothing (41_interleaver.md R105). -/
theorem engineTurn_of_idle (b : Build) {s : State} (hidle : s.busy = false) : engineTurn b s = s := by
  simp [engineTurn, hidle]

end Sys2Proof.Machine

namespace Sys2Proof.Proofs

open Sys2Proof.Machine

/-- Settles O46: the next state is `resetBlock`'s, which says of each field what it becomes, and its BUSY = 0 leaves the
engine no further step. -/
theorem resetClearsTheRegisters : Obligations.ResetClearsTheRegisters := by
  refine fun s rest he => ⟨resetBlock (s.withEvents rest), step_of_reset he, ?nextState, fun b => ?runEnded⟩
  case nextState => rfl
  case runEnded => exact engineTurn_of_idle b (resetBlock_busy (s.withEvents rest))

end Sys2Proof.Proofs

end

section
/-! SUPPORT. Decoding and encoding undo each other (30_encoding.md R60, R68, R70, R77), how an opcode-table word reaches
the decoder (R67, R69), and the fields of the CFG and STATUS words (R63 to R65). -/

namespace Sys2Proof

/-! ### Command words -/

/-- Whatever a CMD word decodes to is well-formed and encodes to that word: a word with RSV ≠ 0 is reserved, and the 16
others are their OP field. -/
theorem decodeCommand_spec (word : Word) :
    (decodeCommand word).wellFormed = true ∧ encode (decodeCommand word) = .cmd word := by
  have hops : ∀ op : BitVec 4, (decodeCommand (op.setWidth 32)).wellFormed = true
      ∧ encode (decodeCommand (op.setWidth 32)) = .cmd (op.setWidth 32) := by decide
  by_cases hrsv : cmdRsv word = 0#28
  · rw [word_of_cmdRsv_zero hrsv]
    exact hops _
  · rw [decodeCommand_reserved (.inl hrsv)]
    exact ⟨Bool.or_eq_true_iff.2 (.inl (bne_iff_ne.2 hrsv)), rfl⟩

theorem decodeCommand_of_reservedWord {word : Word} (h : reservedWord word = true) :
    decodeCommand word = .reservedCmd word := by
  refine decodeCommand_reserved ?_
  simpa [reservedWord, cmdRsv, cmdOp] using h

/-! ### Transaction headers -/

/-- Whatever a header decodes to is well-formed and encodes to that header, with the data word of a write and 0 for a
read. -/
theorem decodeHeader_spec {h : Header} {data : Word} {i : Instr} (hd : decodeHeader h data = .ok i) :
    i.wellFormed = true ∧ encode i = (Encoded.bus h data).canonical := by
  by_cases ha : h.extractLsb' 0 2 = 0#2
  case neg => rw [decodeHeader_misaligned data ha] at hd; cases hd
  case pos =>
    have hn := op_values (h.extractLsb' 2 4)
    simp only [List.mem_cons, List.not_mem_nil, or_false] at hn
    rw [header_of_aligned h ha] at hd ⊢
    rcases hn with hn | hn | hn | hn | hn | hn | hn | hn | hn | hn | hn | hn | hn | hn | hn | hn <;>
      rw [hn] at hd ⊢ <;> cases hd <;> exact ⟨rfl, rfl⟩

/-! ### Both formats -/

theorem decode_encode {i : Instr} (hwf : i.wellFormed = true) : decode (encode i) = .ok i := by
  cases i with
  | reservedCmd word => exact congrArg Except.ok (decodeCommand_of_reservedWord hwf)
  | wrIgnored08_0C o data => obtain rfl | rfl := bit_values o <;> rfl
  | wrIgnored10_1C oo data => obtain rfl | rfl | rfl | rfl := two_bit_values oo <;> rfl
  | rdReserved o => obtain rfl | rfl := bit_values o <;> rfl
  | _ => rfl

theorem encode_of_decode {e : Encoded} {i : Instr} (hd : decode e = .ok i) :
    i.wellFormed = true ∧ encode i = e.canonical := by
  cases e with
  | cmd word =>
    obtain rfl : decodeCommand word = i := Except.ok.inj hd
    exact decodeCommand_spec word
  | bus header data => exact decodeHeader_spec hd

/-! ### Words of the opcode table -/

/-- A table word decodes through the words that its bits are. -/
theorem tableWords_of_decodeTableWord {nbits w : Nat} {i : Instr} (h : decodeTableWord nbits w = some i) :
    ∃ e, tableWords nbits w = some e ∧ decode e = .ok i := by
  unfold decodeTableWord at h
  split at h
  · cases h
  · next e he =>
    split at h
    · next j hj => exact ⟨e, he, hj.trans (congrArg Except.ok (Option.some.inj h))⟩
    · cases h

end Sys2Proof

namespace Sys2Proof.Machine

/-- A host access that carries encoded words runs what they decode to: a CMD word through its WR CMD transaction. -/
theorem step_of_encoded {s : State} {e : Encoded} {i : Instr} {rest : List Event}
    (he : s.events = .transaction e.transaction :: rest) (hd : decode e = .ok i) :
    step s = exec i (s.withEvents rest) := by
  cases e with
  | cmd word =>
    obtain rfl : decodeCommand word = i := Except.ok.inj hd
    exact (step_of_decodes he rfl).trans (exec_wrCmd _ word)
  | bus header data => exact step_of_decodes he hd

theorem withFetchWord_eq (s : State) {nbits w : Nat} {e : Encoded} (h : tableWords nbits w = some e) :
    s.withFetchWord nbits w = s.withEvents (.transaction e.transaction :: s.events) := by
  rw [State.withFetchWord, h]

/-! ### The fields of CFG and STATUS -/

/-- Each field of a CFG word at its bits, and 0 in the reserved bits, whatever the fields are. -/
theorem cfgword_fields : ∀ (lwsel : BitVec 2) (lle : Bool) (rwsel : BitVec 2) (rle : Bool) (v : Word),
    v = cfgword (lwsel.toNat + 1) lle (rwsel.toNat + 1) rle →
    v.extractLsb' 0 2 = lwsel ∧ v.getLsbD 2 = lle ∧ v.getLsbD 3 = false
      ∧ v.extractLsb' 4 2 = rwsel ∧ v.getLsbD 6 = rle ∧ v.extractLsb' 7 25 = 0#25 := by
  simp only [forall_eq]
  decide

/-- Each field of a STATUS word at its bits, and 0 in the reserved bits, whatever the fields are. -/
theorem statusWord_fields : ∀ (busy done exhL exhR : Bool) (err : BitVec 2) (v : Word),
    v = bitWord busy ||| (bitWord done <<< 1) ||| (bitWord exhL <<< 2) ||| (bitWord exhR <<< 3)
      ||| (err.setWidth 32 <<< 4) →
    v.getLsbD 0 = busy ∧ v.getLsbD 1 = done ∧ v.getLsbD 2 = exhL ∧ v.getLsbD 3 = exhR
      ∧ v.extractLsb' 4 2 = err ∧ v.extractLsb' 6 26 = 0#26 := by
  simp only [forall_eq]
  decide

end Sys2Proof.Machine

namespace Sys2Proof.Proofs

open Sys2Proof.Machine

/-- Settles O1: `decode_encode` one way, `encode_of_decode` the other. -/
theorem decodeAndEncodeAgree : Obligations.DecodeAndEncodeAgree :=
  ⟨fun _ => decode_encode, fun _ _ => encode_of_decode⟩

/-- Settles O6: the placed word is the next access, and `step_of_encoded` runs it. -/
theorem tableWordsRunWhatTheyDecodeTo : Obligations.TableWordsRunWhatTheyDecodeTo := by
  intro s nbits w i h
  obtain ⟨e, he, hd⟩ := tableWords_of_decodeTableWord h
  rw [withFetchWord_eq s he]
  exact step_of_encoded rfl hd

/-- Settles O37: the two layouts by `cfgword_fields` and `statusWord_fields`, the examples by computing them. -/
theorem registerLayouts : Obligations.RegisterLayouts :=
  ⟨fun s => cfgword_fields s.left.wsel s.left.le s.right.wsel s.right.le _ rfl,
    fun s => statusWord_fields s.busy s.done s.left.exh s.right.exh s.err _ rfl, rfl, rfl, rfl, rfl⟩

/-- Settles O2: the six words by computing their commands, the others by `decodeCommand_of_reservedWord`. -/
theorem commandWordsDecode : Obligations.CommandWordsDecode := by
  refine ⟨rfl, rfl, rfl, rfl, rfl, rfl, fun op hop => decodeCommand_of_reservedWord ?reserved⟩
  case reserved =>
    have hlow : ∀ op : BitVec 4, 6#4 ≤ op → reservedWord (op.setWidth 32) = true := by decide
    exact hlow op hop

/-- Settles O3: the aligned headers by computing their operations, the others by `decodeHeader_misaligned`. -/
theorem headersDecodeToTheirOperations : Obligations.HeadersDecodeToTheirOperations :=
  fun data => ⟨rfl, rfl, rfl, rfl, rfl, rfl, rfl, rfl, rfl, rfl, rfl, rfl, rfl, rfl, rfl, rfl,
    fun _ => decodeHeader_misaligned data⟩

/-- Settles O5: an access that decodes is `step_of_decodes`. -/
theorem stepRunsTheDecodedInstruction : Obligations.StepRunsTheDecodedInstruction :=
  fun _ _ _ _ => step_of_decodes

end Sys2Proof.Proofs

end

section
/-! SUPPORT. What instructions and steps keep, said once for any property of the next state (`exec_keeps`,
`step_keeps`), and from it the frames: the streams and their positions (10_state.md R31, R32), and the registers (R21 to R28). -/

namespace Sys2Proof.Machine

/-! ### A property of the next state -/

section
variable {P : State → Prop} {s t : State}

/-- An instruction's next state has a property if the state itself, a word returned and an error raised have it, and,
with BUSY = 0, what each command and CFG write does. -/
theorem exec_keeps {i : Instr} (h : exec i s = .next t) (same : P s)
    (read : ∀ v, P { s with returned := s.returned ++ [v] })
    (raise : ∀ code, code ≠ 3#2 → P (raiseCmdError code s))
    (decode : ∀ c, s.busy = false → P (decodeWord Config.build c s))
    (stepped : s.busy = false → P (stepOnce Config.build s)) (started : s.busy = false → P (startRun s))
    (cleared : s.busy = false → P (clearStatus s)) (configured : ∀ v, s.busy = false → P (writeCfg v s)) : P t := by
  rcases exec_cases s i with ⟨e, -⟩ | ⟨-, v, e⟩ | ⟨-, e⟩ | ⟨-, -, e⟩ |
    ⟨hb, ⟨-, e⟩ | ⟨-, e⟩ | ⟨-, e⟩ | ⟨-, e⟩ | ⟨-, e⟩ | ⟨v, -, e⟩⟩ <;>
    obtain rfl := Host.Outcome.next.inj (e.symm.trans h)
  · exact same
  · exact read v
  · exact raise errRsvd (by decide)
  · exact raise errBusy (by decide)
  · exact decode .left hb
  · exact decode .right hb
  · exact stepped hb
  · exact started hb
  · exact cleared hb
  · exact configured v hb

/-- A step's next state has a property if each kind of event leads to it, from whatever events are left. -/
theorem step_keeps (h : step s = .next t) (engine : ∀ es, P (engineTurn Config.build (s.withEvents es)))
    (reset : ∀ es, P (resetBlock (s.withEvents es)))
    (access : ∀ i es u, exec i (s.withEvents es) = .next u → P u)
    (supply : ∀ streams es u, s.events = .supply streams :: es →
      supplyStreams streams (s.withEvents es) = .next u → P u) : P t := by
  obtain ⟨-, rfl⟩ | ⟨e, rest, he, ⟨-, rfl⟩ | ⟨-, rfl⟩ | ⟨streams, rfl, hsupply⟩ | ⟨tr, i, -, -, hexec⟩⟩ :=
    step_cases s h
  · exact engine s.events
  · exact engine rest
  · exact reset rest
  · exact supply streams rest t he hsupply
  · exact access i rest t hexec

/-- The same without the supply, where the host hands over no streams. -/
theorem step_keeps_of_no_supply (h : step s = .next t)
    (hno : ∀ e rest, s.events = e :: rest → e.isSupply = false)
    (engine : ∀ es, P (engineTurn Config.build (s.withEvents es)))
    (reset : ∀ es, P (resetBlock (s.withEvents es)))
    (access : ∀ i es u, exec i (s.withEvents es) = .next u → P u) : P t :=
  step_keeps h engine reset access fun _ es _ he => nomatch hno _ es he

end

/-! ### The effect of an instruction -/

section
variable {s t : State}

/-- What an instruction changes beyond ERR and the returned words, it changes as an accepted command or CFG write. -/
theorem exec_effect {i : Instr} (h : exec i s = .next t) :
    (∃ e r, t = { s with err := e, returned := r })
    ∨ (∃ c, commandOf i = c.decodeCmd ∧ t = decodeWord Config.build c s)
    ∨ (commandOf i = .step ∧ t = stepOnce Config.build s)
    ∨ (commandOf i = .run ∧ t = startRun s)
    ∨ (commandOf i = .clear ∧ t = clearStatus s)
    ∨ (∃ v, i = .wrCfg v ∧ t = writeCfg v s) := by
  rcases exec_cases s i with ⟨e, -⟩ | ⟨-, v, e⟩ | ⟨-, e⟩ | ⟨-, -, e⟩ |
    ⟨-, ⟨hi, e⟩ | ⟨hi, e⟩ | ⟨hi, e⟩ | ⟨hi, e⟩ | ⟨hi, e⟩ | ⟨v, hi, e⟩⟩ <;>
    obtain rfl := Host.Outcome.next.inj (e.symm.trans h)
  · exact .inl ⟨s.err, s.returned, rfl⟩
  · exact .inl ⟨s.err, _, rfl⟩
  · exact .inl ⟨_, s.returned, raiseCmdError_eq s _⟩
  · exact .inl ⟨_, s.returned, raiseCmdError_eq s _⟩
  · exact .inr (.inl ⟨.left, hi, rfl⟩)
  · exact .inr (.inl ⟨.right, hi, rfl⟩)
  · exact .inr (.inr (.inl ⟨hi, rfl⟩))
  · exact .inr (.inr (.inr (.inl ⟨hi, rfl⟩)))
  · exact .inr (.inr (.inr (.inr (.inl ⟨hi, rfl⟩))))
  · exact .inr (.inr (.inr (.inr (.inr ⟨v, hi, rfl⟩))))

end

/-! ### STEP's iteration, field by field -/

section
variable (b : Build) (s : State)

/-- STEP decodes each channel once. -/
theorem stepOnce_channel (c : Chan) : ∃ fill, (stepOnce b s).channel c = decodeChannel fill (s.channel c) := by
  obtain ⟨-, h⟩ | ⟨-, h⟩ := stepOnce_cases b s <;> rw [h] <;> cases c <;> exact ⟨_, rfl⟩

@[simp] theorem stepOnce_busy : (stepOnce b s).busy = s.busy := by
  obtain ⟨-, h⟩ | ⟨-, h⟩ := stepOnce_cases b s <;> simp [h]

@[simp] theorem stepOnce_returned : (stepOnce b s).returned = s.returned := by
  obtain ⟨-, h⟩ | ⟨-, h⟩ := stepOnce_cases b s <;> simp [h]

@[simp] theorem stepOnce_events : (stepOnce b s).events = s.events := by
  obtain ⟨-, h⟩ | ⟨-, h⟩ := stepOnce_cases b s <;> simp [h]

/-- STEP appends one frame to OUT, or nothing. -/
theorem stepOnce_out :
    (stepOnce b s).out = s.out ∨ ∃ l r, (stepOnce b s).out = s.out ++ frameBytes b.nativeOrder l r := by
  obtain ⟨-, h⟩ | ⟨-, h⟩ := stepOnce_cases b s
  · exact .inl (by simp [h])
  · exact .inr ⟨_, _, by rw [h]; exact writeFrame_out _ _ _ _⟩

/-- An engine step appends one frame to OUT, or nothing. -/
theorem engineStep_out :
    (engineStep b s).out = s.out ∨ ∃ l r, (engineStep b s).out = s.out ++ frameBytes b.nativeOrder l r := by
  obtain ⟨-, h⟩ | ⟨-, h⟩ := engineStep_cases b s
  · exact .inl (by simp [h])
  · exact .inr ⟨_, _, by rw [h]; exact writeFrame_out _ _ _ _⟩

/-- On this hardware STEP draws nothing. -/
@[simp] theorem stepOnce_build_draws : (stepOnce Config.build s).draws = s.draws := by
  obtain ⟨-, h⟩ | ⟨-, h⟩ := stepOnce_cases Config.build s <;> simp [h, decodeBoth_build]

@[simp] theorem decodeWord_build_draws (c : Chan) : (decodeWord Config.build c s).draws = s.draws := by
  simp [decodeWord_build]

end

/-! ### Streams and positions (10_state.md R31) -/

/-- `ch'` is the channel `ch` after some reading or none: the same stream, at a position no further back, and within the
stream if it was. -/
structure Channel.ReadOn (ch ch' : Channel) : Prop where
  bytes : ch'.bytes = ch.bytes
  forward : ch.pos ≤ ch'.pos
  within : ch.pos ≤ ch.bytes.length → ch'.pos ≤ ch'.bytes.length

/-- A channel changed in its registers only. -/
theorem Channel.ReadOn.of_eq {ch ch' : Channel} (hbytes : ch'.bytes = ch.bytes) (hpos : ch'.pos = ch.pos) :
    ch.ReadOn ch' :=
  ⟨hbytes, hpos.ge, fun h => by rwa [hbytes, hpos]⟩

theorem Channel.ReadOn.refl (ch : Channel) : ch.ReadOn ch := .of_eq rfl rfl

theorem decodeChannel_readOn (fill : Word) (ch : Channel) : ch.ReadOn (decodeChannel fill ch) := by
  have hpos := decodeChannel_pos fill ch
  refine ⟨decodeChannel_bytes fill ch, by omega, fun h => ?within⟩
  case within =>
    rw [decodeChannel_bytes, hpos, Channel.remaining]
    omega

section
variable {s t : State}

theorem decodeWord_readOn (b : Build) (d : Chan) (s : State) (c : Chan) :
    (s.channel c).ReadOn ((decodeWord b d s).channel c) := by
  cases c <;> cases d
  · exact decodeChannel_readOn _ s.left
  · exact .refl s.left
  · exact .refl s.right
  · exact decodeChannel_readOn _ s.right

theorem engineTurn_readOn (b : Build) (s : State) (c : Chan) :
    (s.channel c).ReadOn ((engineTurn b s).channel c) := by
  unfold engineTurn
  split
  · obtain ⟨fill, h⟩ := engineStep_channel b s c
    exact h ▸ decodeChannel_readOn fill _
  · exact .refl _

theorem resetBlock_readOn (s : State) (c : Chan) : (s.channel c).ReadOn ((resetBlock s).channel c) := by
  cases c <;> exact .of_eq rfl rfl

/-- An instruction stores to no input stream and moves no position back or past the end. -/
theorem exec_readOn {i : Instr} (h : exec i s = .next t) (c : Chan) : (s.channel c).ReadOn (t.channel c) := by
  refine exec_keeps (P := fun u => (s.channel c).ReadOn (u.channel c)) h (.refl _) (fun v => ?read)
    (fun code _ => ?raise) (fun d _ => decodeWord_readOn _ d s c) (fun _ => ?step) (fun _ => ?run) (fun _ => ?clear)
    (fun v _ => ?cfg)
  case step =>
    obtain ⟨fill, hfill⟩ := stepOnce_channel Config.build s c
    exact hfill ▸ decodeChannel_readOn fill _
  case raise => rw [raiseCmdError_eq]; cases c <;> exact .refl _
  all_goals cases c <;> exact .of_eq rfl rfl

/-- So does a step in which the host hands over no streams. -/
theorem step_readOn (h : step s = .next t) (hno : ∀ e rest, s.events = e :: rest → e.isSupply = false) (c : Chan) :
    (s.channel c).ReadOn (t.channel c) :=
  step_keeps_of_no_supply (P := fun u => (s.channel c).ReadOn (u.channel c)) h hno
    (fun es => engineTurn_readOn _ (s.withEvents es) c) (fun es => resetBlock_readOn (s.withEvents es) c)
    (fun _ _ _ hexec => exec_readOn hexec c)

/-! ### OUT (10_state.md R32) -/

/-- An instruction leaves OUT as it is, or is a STEP and appends one frame. -/
theorem exec_out {i : Instr} (h : exec i s = .next t) :
    t.out = s.out ∨ commandOf i = .step ∧ ∃ l r, t.out = s.out ++ frameBytes Config.nativeOrder l r := by
  obtain ⟨e, r, rfl⟩ | ⟨c, -, rfl⟩ | ⟨hstep, rfl⟩ | ⟨-, rfl⟩ | ⟨-, rfl⟩ | ⟨v, -, rfl⟩ := exec_effect h
  · exact .inl rfl
  · exact .inl (decodeWord_out _ c s)
  · exact (stepOnce_out _ s).imp_right fun hout => ⟨hstep, hout⟩
  · exact .inl rfl
  · exact .inl rfl
  · exact .inl rfl

/-- A step in which the host hands over no streams leaves OUT as it is, or appends one frame. -/
theorem step_out (h : step s = .next t) (hno : ∀ e rest, s.events = e :: rest → e.isSupply = false) :
    t.out = s.out ∨ ∃ l r, t.out = s.out ++ frameBytes Config.nativeOrder l r := by
  refine step_keeps_of_no_supply
    (P := fun u => u.out = s.out ∨ ∃ l r, u.out = s.out ++ frameBytes Config.nativeOrder l r) h hno (fun es => ?engine) (fun es => .inl rfl) (fun i es u hexec => (exec_out hexec).imp_right And.right)
  case engine =>
    unfold engineTurn
    split
    · exact engineStep_out _ (s.withEvents es)
    · exact .inl rfl

/-- A byte beyond what an append of `bs` stores is no byte of the stream before or after it. -/
theorem memByte_append_beyond {m bs : Memory} {a : Nat} (h : m.length + bs.length ≤ a) :
    memByte (m ++ bs) a = memByte m a := by
  rw [memByte, memByte, List.getElem?_eq_none (by simpa using h), List.getElem?_eq_none (by omega)]

/-! ### Registers (10_state.md R21 to R28) -/

/-- Which instruction changes what of a channel. -/
theorem exec_channel_frame {i : Instr} (h : exec i s = .next t) (c : Chan) :
    ((∀ v, i ≠ .wrCfg v) →
      (t.channel c).wsel = (s.channel c).wsel ∧ (t.channel c).le = (s.channel c).le)
    ∧ (commandOf i ∉ [c.decodeCmd, .step, .clear] →
      (t.channel c).exh = (s.channel c).exh ∧ (t.channel c).sample = (s.channel c).sample)
    ∧ (commandOf i ∉ [c.decodeCmd, .step] → (t.channel c).pos = (s.channel c).pos) := by
  obtain ⟨e, r, rfl⟩ | ⟨d, hi, rfl⟩ | ⟨hi, rfl⟩ | ⟨hi, rfl⟩ | ⟨hi, rfl⟩ | ⟨v, rfl, rfl⟩ := exec_effect h
  · cases c <;> simp
  · cases c <;> cases d <;> simp [hi, Chan.decodeCmd]
  · obtain ⟨fill, hfill⟩ := stepOnce_channel Config.build s c
    simp [hi, hfill]
  · cases c <;> simp
  · cases c <;> simp [hi]
  · cases c <;> simp

/-- Which instruction changes BUSY, DONE and FRAMES. -/
theorem exec_flags_frame {i : Instr} (h : exec i s = .next t) :
    (commandOf i ≠ .run → t.busy = s.busy)
    ∧ (commandOf i ∉ [Instr.step, .run, .clear] → t.done = s.done ∧ t.frames = s.frames) := by
  obtain ⟨e, r, rfl⟩ | ⟨d, -, rfl⟩ | ⟨hi, rfl⟩ | ⟨hi, rfl⟩ | ⟨hi, rfl⟩ | ⟨v, rfl, rfl⟩ := exec_effect h
  · simp
  · simp
  · simp [hi]
  · simp [hi]
  · simp [hi]
  · simp

/-- No instruction moves the model's own draws and events. -/
theorem exec_draws_events {i : Instr} (h : exec i s = .next t) : t.draws = s.draws ∧ t.events = s.events := by
  obtain ⟨e, r, rfl⟩ | ⟨d, -, rfl⟩ | ⟨-, rfl⟩ | ⟨-, rfl⟩ | ⟨-, rfl⟩ | ⟨v, -, rfl⟩ := exec_effect h
  · exact ⟨rfl, rfl⟩
  · exact ⟨decodeWord_build_draws s d, decodeWord_events _ d s⟩
  · exact ⟨stepOnce_build_draws s, stepOnce_events _ s⟩
  · exact ⟨rfl, rfl⟩
  · exact ⟨rfl, rfl⟩
  · exact ⟨rfl, rfl⟩

/-- An instruction that is no command, CMD write or CFG write does nothing, or it returns a word. -/
theorem exec_err_frame {i : Instr} (h : exec i s = .next t) (hcmd : ∀ v, i ≠ .wrCmd v) (hcfg : ∀ v, i ≠ .wrCfg v)
    (hres : ∀ v, i ≠ .reservedCmd v) (hi : i ∉ [Instr.decodeL, .decodeR, .step, .run, .clear]) : t.err = s.err := by
  cases i with
  | decodeL | decodeR | step | run | clear => exact absurd (by decide) hi
  | reservedCmd v => exact absurd rfl (hres v)
  | wrCmd v => exact absurd rfl (hcmd v)
  | wrCfg v => exact absurd rfl (hcfg v)
  | _ => obtain rfl := Host.Outcome.next.inj h; rfl

/-- Only a read returns a word. -/
theorem exec_returned {i : Instr} (h : exec i s = .next t) (hi : i ∉ readInstrs) : t.returned = s.returned := by
  rcases exec_cases s i with ⟨e, -⟩ | ⟨hread, -⟩ | ⟨-, e⟩ | ⟨-, -, e⟩ |
    ⟨-, ⟨-, e⟩ | ⟨-, e⟩ | ⟨-, e⟩ | ⟨-, e⟩ | ⟨-, e⟩ | ⟨v, -, e⟩⟩
  case inr.inl => exact absurd hread hi
  all_goals
    obtain rfl := Host.Outcome.next.inj (e.symm.trans h)
    simp

end

end Sys2Proof.Machine

namespace Sys2Proof.Proofs

open Sys2Proof.Machine

/-- Settles O13: no case of `exec_cases` is without a next state. -/
theorem everyInstructionHasANextState : Obligations.EveryInstructionHasANextState := exec_next

/-- Settles O40: the input streams by `exec_readOn`, OUT by `exec_out`: an appended frame leaves the bytes below it, and
none lies beyond it. -/
theorem instructionsLeaveTheStreams : Obligations.InstructionsLeaveTheStreams := by
  refine fun i s t h => ⟨fun c a => by rw [(exec_readOn h c).bytes], fun hi a => ?notStep, fun a ha => ?outside⟩
  case notStep =>
    obtain hout | ⟨hstep, -⟩ := exec_out h
    · rw [hout]
    · exact absurd hstep hi
  case outside =>
    obtain hout | ⟨-, l, r, hout⟩ := exec_out h <;> rw [hout]
    obtain hbelow | hbeyond := ha
    · exact memByte_append hbelow
    · exact memByte_append_beyond (by simpa using hbeyond)

/-- Settles O41: the channels by `exec_channel_frame`, the flags by `exec_flags_frame`, and the remaining fields each
by its own frame. -/
theorem instructionsLeaveTheRegisters : Obligations.InstructionsLeaveTheRegisters := by
  intro i s t h
  obtain ⟨hcfgL, hresultL, hposL⟩ := exec_channel_frame h .left
  obtain ⟨hcfgR, hresultR, hposR⟩ := exec_channel_frame h .right
  obtain ⟨hbusy, hcount⟩ := exec_flags_frame h
  exact ⟨fun hi => ⟨(hcfgL hi).1, (hcfgL hi).2, hcfgR hi⟩, hbusy, hcount, hresultL, hresultR, hposL, hposR,
    exec_err_frame h, exec_returned h, exec_draws_events h⟩

/-- Settles O42: a step by `step_readOn`, a reset by its effect on a channel. -/
theorem positionsOnlyMoveForward : Obligations.PositionsOnlyMoveForward := by
  refine ⟨fun s t h hno c => ?step, fun s t rest he h c => ?reset⟩
  case step =>
    obtain ⟨hbytes, hforward, hwithin⟩ := step_readOn h hno c
    exact ⟨hbytes, hforward, hwithin⟩
  case reset =>
    obtain rfl := Host.Outcome.next.inj ((step_of_reset he).symm.trans h)
    cases c <;> rfl

/-- Settles O43: `step_out`, with a frame's two words written out. -/
theorem outputIsOnlyAppendedTo : Obligations.OutputIsOnlyAppendedTo :=
  fun _ _ h hno => (step_out h hno).imp_right fun ⟨l, r, hout⟩ => ⟨l, r, hout, by simp [hout]⟩

/-- Settles O44: a read returns a register, whatever the streams, and every other instruction returns nothing. -/
theorem streamsAreNotReadableThroughThePort : Obligations.StreamsAreNotReadableThroughThePort := by
  rintro i s t _ t' lb rb out lp rp rfl h h'
  by_cases hi : i ∈ readInstrs
  case neg => rw [exec_returned h' hi, exec_returned h hi]
  case pos =>
    simp only [readInstrs, List.mem_cons, List.not_mem_nil, or_false] at hi
    rcases hi with rfl | rfl | rfl | rfl | rfl | rfl | rfl | rfl <;>
      (obtain rfl := Host.Outcome.next.inj h; obtain rfl := Host.Outcome.next.inj h'; rfl)

end Sys2Proof.Proofs

end

section
/-! SUPPORT. The invariants (10_state.md R23 to R25, R31), clause by clause over instructions, engine turns, resets and
supplies, and the alignment of positions (20_memory.md R46). -/

namespace Sys2Proof.Machine

/-! ### Channels -/

section
variable {ch : Channel} (fill : Word)

/-- A decode that exhausts a channel leaves it at its end. -/
theorem decodeChannel_exhaustedAtEnd (hpos : ch.pos ≤ ch.bytes.length) : (decodeChannel fill ch).ExhaustedAtEnd := by
  intro hexh
  rw [decodeChannel_exh] at hexh
  rw [decodeChannel_short_pos fill hexh hpos, decodeChannel_bytes]

/-- An exhausted channel stays exhausted over a decode (40_word_decoder.md R86). -/
theorem decodeChannel_still_exhausted (hend : ch.ExhaustedAtEnd) (hexh : ch.exh = true) :
    (decodeChannel fill ch).exh = true := by
  rw [decodeChannel_exh]
  exact readsShort_at_end (hend hexh)

/-- A position that is a multiple of W stays one over a decode, unless the read is short; a channel at its end reads
short (20_memory.md R46). -/
theorem decodeChannel_aligned (hpos : ch.pos ≤ ch.bytes.length)
    (haligned : ch.width ∣ ch.pos ∨ ch.pos = ch.bytes.length) :
    ch.width ∣ (decodeChannel fill ch).pos
      ∨ (decodeChannel fill ch).exh = true ∧ (decodeChannel fill ch).pos = (decodeChannel fill ch).bytes.length := by
  cases hr : ch.readsShort with
  | true =>
    have hexh : (decodeChannel fill ch).exh = true := by rw [decodeChannel_exh, hr]
    exact .inr ⟨hexh, decodeChannel_exhaustedAtEnd fill hpos hexh⟩
  | false =>
    obtain hdvd | hend := haligned
    · rw [decodeChannel_full fill hr]
      exact .inl (Nat.dvd_add_self_right.2 hdvd)
    · cases (readsShort_at_end hend).symm.trans hr

end

/-! ### ERR is never 3 -/

section
variable {s t : State} {i : Instr}

theorem exec_err_legal (herr : s.err ≠ 3#2) (h : exec i s = .next t) : t.err ≠ 3#2 := by
  refine exec_keeps (P := fun u => u.err ≠ 3#2) h herr (fun _ => herr) (fun code hcode => ?raise)
    (fun c _ => by rwa [decodeWord_err]) (fun _ => by rwa [stepOnce_err]) (fun _ => herr) (fun _ => ?clear)
    (fun _ _ => herr)
  case raise => rw [raiseCmdError_err]; split <;> assumption
  case clear => rw [clearStatus_err]; decide

/-! ### DONE = 0 while BUSY = 1 -/

/-- Only STEP sets DONE, and it is accepted with BUSY = 0 only. -/
theorem exec_runningNotDone (hs : s.busy = true → s.done = false) (h : exec i s = .next t) :
    t.busy = true → t.done = false :=
  exec_keeps (P := fun u => u.busy = true → u.done = false) h hs (fun _ => hs) (fun _ _ => by simpa using hs)
    (fun _ _ => by simpa using hs) (fun hb => by simp [hb]) (fun _ _ => rfl) (fun _ _ => rfl) (fun _ _ => hs)

/-- The engine step that sets DONE clears BUSY. -/
theorem engineTurn_runningNotDone (b : Build) (hs : s.busy = true → s.done = false) :
    (engineTurn b s).busy = true → (engineTurn b s).done = false := by
  unfold engineTurn
  split
  · next hb => obtain ⟨-, h⟩ | ⟨-, h⟩ := engineStep_cases b s <;> simp [h, hs hb]
  · exact hs

/-! ### The machine invariant -/

theorem State.Inv.withEvents (hs : s.Inv) (es : List Event) : (s.withEvents es).Inv :=
  ⟨hs.leftPos, hs.rightPos, hs.errLegal, hs.runningNotDone⟩

theorem engineTurn_inv (b : Build) (hs : s.Inv) : (engineTurn b s).Inv where
  leftPos := (engineTurn_readOn b s .left).within hs.leftPos
  rightPos := (engineTurn_readOn b s .right).within hs.rightPos
  errLegal := by rw [engineTurn_err]; exact hs.errLegal
  runningNotDone := engineTurn_runningNotDone b hs.runningNotDone

theorem resetBlock_inv (hs : s.Inv) : (resetBlock s).Inv where
  leftPos := hs.leftPos
  rightPos := hs.rightPos
  errLegal := by rw [resetBlock_err]; decide
  runningNotDone _ := rfl

theorem exec_inv (hs : s.Inv) (h : exec i s = .next t) : t.Inv where
  leftPos := (exec_readOn h .left).within hs.leftPos
  rightPos := (exec_readOn h .right).within hs.rightPos
  errLegal := exec_err_legal hs.errLegal h
  runningNotDone := exec_runningNotDone hs.runningNotDone h

/-- New streams come with positions that they have. -/
theorem supplyStreams_inv {streams : Streams} (hs : s.Inv) (h : supplyStreams streams s = .next t) : t.Inv := by
  obtain ⟨-, hl, hr, rfl⟩ := supplyStreams_cases s h
  exact ⟨hl, hr, hs.errLegal, hs.runningNotDone⟩

theorem step_inv (hs : s.Inv) (h : step s = .next t) : t.Inv :=
  step_keeps h (fun es => engineTurn_inv _ (hs.withEvents es)) (fun es => resetBlock_inv (hs.withEvents es))
    (fun _ es _ hexec => exec_inv (hs.withEvents es) hexec)
    (fun _ es _ _ hsupply => supplyStreams_inv (hs.withEvents es) hsupply)

/-! ### An exhausted channel is at its end -/

theorem decodeWord_exhaustedAtEnd (b : Build) (d c : Chan) (hpos : (s.channel c).pos ≤ (s.channel c).bytes.length)
    (hend : (s.channel c).ExhaustedAtEnd) : ((decodeWord b d s).channel c).ExhaustedAtEnd := by
  cases c <;> cases d
  · exact decodeChannel_exhaustedAtEnd _ hpos
  · exact hend
  · exact hend
  · exact decodeChannel_exhaustedAtEnd _ hpos

theorem engineTurn_exhaustedAtEnd (b : Build) (c : Chan) (hpos : (s.channel c).pos ≤ (s.channel c).bytes.length)
    (hend : (s.channel c).ExhaustedAtEnd) : ((engineTurn b s).channel c).ExhaustedAtEnd := by
  unfold engineTurn
  split
  · obtain ⟨fill, h⟩ := engineStep_channel b s c
    exact h ▸ decodeChannel_exhaustedAtEnd fill hpos
  · exact hend

theorem exec_exhaustedAtEnd (c : Chan) (hpos : (s.channel c).pos ≤ (s.channel c).bytes.length)
    (hend : (s.channel c).ExhaustedAtEnd) (h : exec i s = .next t) : (t.channel c).ExhaustedAtEnd := by
  refine exec_keeps (P := fun u => (u.channel c).ExhaustedAtEnd) h hend (fun _ => ?read) (fun code _ => ?raise)
    (fun d _ => decodeWord_exhaustedAtEnd _ d c hpos hend) (fun _ => ?step) (fun _ => ?run) (fun _ => ?clear)
    (fun _ _ => ?cfg)
  case step =>
    obtain ⟨fill, hfill⟩ := stepOnce_channel Config.build s c
    exact hfill ▸ decodeChannel_exhaustedAtEnd fill hpos
  case raise => rw [raiseCmdError_eq]; cases c <;> exact hend
  case clear => cases c <;> exact fun hexh => nomatch hexh
  all_goals cases c <;> exact hend

/-! ### DONE says that both channels are exhausted -/

/-- STEP sets DONE only after an iteration that exhausts both. -/
theorem stepOnce_doneExhausted (b : Build) :
    (stepOnce b s).done = true → (stepOnce b s).left.exh = true ∧ (stepOnce b s).right.exh = true := by
  obtain ⟨hshort, h⟩ | ⟨-, h⟩ := stepOnce_cases b s <;> rw [h]
  · exact fun _ => (decodeBoth_exh_iff b s).2 hshort
  · exact fun hdone => nomatch hdone

/-- The engine does too: through the rest of a run DONE = 0. -/
theorem engineTurn_doneExhausted (b : Build) (hs : s.SessionInv) :
    (engineTurn b s).done = true → (engineTurn b s).left.exh = true ∧ (engineTurn b s).right.exh = true := by
  unfold engineTurn
  split
  · next hb =>
    obtain ⟨hshort, h⟩ | ⟨-, h⟩ := engineStep_cases b s <;> rw [h]
    · exact fun _ => (decodeBoth_exh_iff b s).2 hshort
    · simp [hs.runningNotDone hb]
  · exact hs.doneExhausted

/-- A decode with DONE = 1 reads an exhausted channel, which stays so. -/
theorem decodeWord_doneExhausted (b : Build) (c : Chan) (hs : s.SessionInv) :
    (decodeWord b c s).done = true → (decodeWord b c s).left.exh = true ∧ (decodeWord b c s).right.exh = true := by
  rw [decodeWord_done]
  intro hdone
  obtain ⟨hl, hr⟩ := hs.doneExhausted hdone
  cases c with
  | left => exact ⟨decodeChannel_still_exhausted _ hs.leftEnd hl, hr⟩
  | right => exact ⟨hl, decodeChannel_still_exhausted _ hs.rightEnd hr⟩

theorem exec_doneExhausted (hs : s.SessionInv) (h : exec i s = .next t) :
    t.done = true → t.left.exh = true ∧ t.right.exh = true :=
  exec_keeps (P := fun u => u.done = true → u.left.exh = true ∧ u.right.exh = true) h hs.doneExhausted
    (fun _ => hs.doneExhausted) (fun _ _ => by simpa using hs.doneExhausted)
    (fun c _ => decodeWord_doneExhausted _ c hs) (fun _ => stepOnce_doneExhausted _) (fun _ hdone => nomatch hdone)
    (fun _ hdone => nomatch hdone) (fun _ _ => hs.doneExhausted)

/-! ### The session invariant -/

theorem State.SessionInv.withEvents (hs : s.SessionInv) (es : List Event) : (s.withEvents es).SessionInv :=
  ⟨hs.toInv.withEvents es, hs.leftEnd, hs.rightEnd, hs.doneExhausted⟩

theorem engineTurn_sessionInv (b : Build) (hs : s.SessionInv) : (engineTurn b s).SessionInv where
  toInv := engineTurn_inv b hs.toInv
  leftEnd := engineTurn_exhaustedAtEnd b .left hs.leftPos hs.leftEnd
  rightEnd := engineTurn_exhaustedAtEnd b .right hs.rightPos hs.rightEnd
  doneExhausted := engineTurn_doneExhausted b hs

/-- After a reset nothing is exhausted and DONE = 0. -/
theorem resetBlock_sessionInv (hs : s.Inv) : (resetBlock s).SessionInv where
  toInv := resetBlock_inv hs
  leftEnd hexh := nomatch hexh
  rightEnd hexh := nomatch hexh
  doneExhausted hdone := nomatch hdone

theorem exec_sessionInv (hs : s.SessionInv) (h : exec i s = .next t) : t.SessionInv where
  toInv := exec_inv hs.toInv h
  leftEnd := exec_exhaustedAtEnd .left hs.leftPos hs.leftEnd h
  rightEnd := exec_exhaustedAtEnd .right hs.rightPos hs.rightEnd h
  doneExhausted := exec_doneExhausted hs h

theorem step_sessionInv (hs : s.SessionInv) (hno : ∀ e rest, s.events = e :: rest → e.isSupply = false)
    (h : step s = .next t) : t.SessionInv :=
  step_keeps_of_no_supply h hno (fun es => engineTurn_sessionInv _ (hs.withEvents es))
    (fun es => resetBlock_sessionInv (hs.withEvents es).toInv)
    (fun _ es _ hexec => exec_sessionInv (hs.withEvents es) hexec)

end

end Sys2Proof.Machine

namespace Sys2Proof.Proofs

open Sys2Proof.Machine

/-- Settles O49: each event keeps the invariant (`step_inv`). -/
theorem stepKeepsTheMachineInvariant : Obligations.StepKeepsTheMachineInvariant := fun _ _ => step_inv

/-- Settles O50: each event but a supply keeps the session's invariant (`step_sessionInv`). -/
theorem stepKeepsTheSessionInvariant : Obligations.StepKeepsTheSessionInvariant := fun _ _ => step_sessionInv

/-- Settles O51: every register is 0 and every stream empty, so a reset of that state, which is the state itself, has
`resetBlock_sessionInv`. -/
theorem resetMeetsTheInvariants : Obligations.ResetMeetsTheInvariants := by
  have hinv : State.reset.Inv := ⟨Nat.le_refl 0, Nat.le_refl 0, by decide, fun _ => rfl⟩
  exact ⟨hinv, resetBlock_sessionInv hinv⟩

/-- Settles O20: a decode keeps the width, and `decodeChannel_aligned` says where it leaves the position. -/
theorem positionsStayAligned : Obligations.PositionsStayAligned := by
  intro b c s hpos haligned
  rw [decodeWord_channel]
  exact ⟨decodeChannel_width _ _, decodeChannel_aligned _ hpos haligned⟩

end Sys2Proof.Proofs

end

section
/-! SUPPORT. The machine and the run (20_memory.md R49, R54; 41_interleaver.md section 2): the steps that events make, a
run left to itself, and a run among host accesses (60_exceptions.md R142). -/

namespace Sys2Proof.Machine

variable {s t u : State}

/-! ### One step, by its event -/

theorem step_of_engine {rest : List Event} (he : s.events = .engine :: rest) :
    step s = .next (engineTurn Config.build (s.withEvents rest)) := by
  simp only [step, he]

theorem step_of_no_events (he : s.events = []) : step s = .next (engineTurn Config.build s) := by
  simp only [step, he]

theorem step_of_supply {streams : Streams} {rest : List Event} (he : s.events = .supply streams :: rest) :
    step s = supplyStreams streams (s.withEvents rest) := by
  simp only [step, he]

theorem runSteps_of_step {n : Nat} (h : step s = .next t) : runSteps (n + 1) s = runSteps n t := by
  simp only [runSteps, h]

/-- With BUSY = 1 the engine's turn is its step (41_interleaver.md R105). -/
theorem engineTurn_of_busy (b : Build) (hb : s.busy = true) : engineTurn b s = engineStep b s := if_pos hb

/-! ### A run with no event pending -/

@[simp] theorem engineSteps_events (b : Build) (k : Nat) (s : State) : (engineSteps b k s).events = s.events := by
  induction k with
  | zero => rfl
  | succ k ih => rw [engineSteps, engineStep_events, ih]

/-- From any point of a run the machine's steps are the engine's, until the step that ends the run. -/
theorem runSteps_engineSteps (he : s.events = []) (hb : s.busy = true) (j k : Nat)
    (hjk : j + k ≤ s.framesToCome + 1) :
    runSteps k (engineSteps Config.build j s) = .next (engineSteps Config.build (j + k) s) := by
  induction k generalizing j with
  | zero => rfl
  | succ k ih =>
    have hbusy : (engineSteps Config.build j s).busy = true := (engineSteps_busy _ (by omega)).trans hb
    have hstep := step_of_no_events ((engineSteps_events Config.build j s).trans he)
    rw [engineTurn_of_busy _ hbusy] at hstep
    rw [runSteps_of_step hstep, ← engineSteps, ih (j + 1) (by omega), Nat.add_right_comm, Nat.add_assoc]

/-! ### A run among host accesses (20_memory.md R54) -/

theorem SameRun.refl (s : State) : SameRun s s := ⟨rfl, rfl, rfl, rfl, rfl, rfl, rfl⟩

theorem SameRun.trans (h : SameRun s t) (h' : SameRun t u) : SameRun s u :=
  ⟨h'.left.trans h.left, h'.right.trans h.right, h'.busy.trans h.busy, h'.done.trans h.done,
    h'.frames.trans h.frames, h'.out.trans h.out, h'.draws.trans h.draws⟩

theorem SameRun.withEvents (s : State) (es : List Event) : SameRun s (s.withEvents es) :=
  ⟨rfl, rfl, rfl, rfl, rfl, rfl, rfl⟩

/-- On its turn the engine takes the run one step on. -/
theorem step_engine_sameRun {rest : List Event} (hb : s.busy = true) (he : s.events = .engine :: rest) :
    ∃ t, step s = .next t ∧ t.events = rest ∧ SameRun (engineStep Config.build s) t := by
  have hstep := step_of_engine he
  rw [engineTurn_of_busy _ (by exact hb)] at hstep
  exact ⟨_, hstep, engineStep_events _ _, engineStep_sameRun _ (.withEvents s rest)⟩

/-- An access that spells a transaction is taken, and leaves the run where it stands. -/
theorem step_access_sameRun {tr : Transaction} {rest : List Event} (hb : s.busy = true)
    (he : s.events = .transaction tr :: rest) (hd : (decodeTransaction tr).toBool = true) :
    ∃ t, step s = .next t ∧ t.events = rest ∧ SameRun s t := by
  cases hi : decodeTransaction tr with
  | error why => rw [hi] at hd; cases hd
  | ok i =>
    obtain ⟨t, ht⟩ := exec_next i (s.withEvents rest)
    exact ⟨t, (step_of_decodes he hi).trans ht, (exec_draws_events ht).2,
      (SameRun.withEvents s rest).trans (exec_busy_sameRun hb ht)⟩

/-- Where `u` stands in the run of `s` after `k` engine steps, and `es` is what is pending: the machine takes all of
`es`, and the run has then had the engine turns of `es` more. -/
theorem runSteps_duringRun (hb : s.busy = true) (es : List Event) (hes : ∀ e ∈ es, e.duringRun = true) {k : Nat}
    (hk : k + es.count .engine ≤ s.framesToCome) (he : u.events = es) (hu : SameRun (engineSteps Config.build k s) u) :
    ∃ t, runSteps es.length u = .next t ∧ t.events = []
      ∧ SameRun (engineSteps Config.build (k + es.count .engine) s) t := by
  induction es generalizing k u with
  | nil => exact ⟨u, rfl, he, hu⟩
  | cons e es ih =>
    obtain ⟨hhead, htail⟩ := List.forall_mem_cons.1 hes
    have hub : u.busy = true := by
      rw [hu.busy, engineSteps_busy _ (by omega), hb]
    cases e with
    | engine =>
      rw [List.count_cons_self, ← Nat.add_assoc, Nat.add_right_comm] at hk ⊢
      obtain ⟨t, hstep, hrest, ht⟩ := step_engine_sameRun hub he
      rw [List.length_cons, runSteps_of_step hstep]
      exact ih htail hk hrest ((engineStep_sameRun _ hu).trans ht)
    | transaction tr =>
      rw [List.count_cons_of_ne (by simp)] at hk ⊢
      obtain ⟨t, hstep, hrest, ht⟩ := step_access_sameRun hub he hhead
      rw [List.length_cons, runSteps_of_step hstep]
      exact ih htail hk hrest (hu.trans ht)
    | reset => cases hhead
    | supply streams => cases hhead

/-! ### STEP and RUN -/

/-- An iteration neither reads nor writes BUSY and DONE. -/
theorem iterate_withFlags (b : Build) (s : State) (busy done : Bool) :
    iterate b { s with busy := busy, done := done }
      = ((iterate b s).1, { (iterate b s).2 with busy := busy, done := done }) := by
  cases h : (s.left.readsShort && s.right.readsShort) with
  | true => exact (iterate_terminated b { s with busy := busy, done := done } h).trans (by
      rw [iterate_terminated b s h]; rfl)
  | false => exact (iterate_continues b { s with busy := busy, done := done } h).trans (by
      rw [iterate_continues b s h]; rfl)

/-- The engine's step and STEP's body take one iteration, and differ in what they do with its result. -/
theorem engineStep_of_stepOnce (b : Build) (s : State) :
    engineStep b { s with busy := true, done := false } = { stepOnce b s with busy := !(stepOnce b s).done } := by
  unfold engineStep stepOnce
  rw [iterate_withFlags]
  cases iterate b s with
  | mk result t => cases result <;> rfl

/-- With both streams at their end the engine's step ends the run and writes nothing. -/
theorem engineStep_at_end (b : Build) (hl : s.left.pos = s.left.bytes.length)
    (hr : s.right.pos = s.right.bytes.length) :
    engineStep b s = { decodeBoth b s with busy := false, done := true } := by
  rw [engineStep, iterate_terminated b s (by rw [readsShort_at_end hl, readsShort_at_end hr]; rfl)]

end Sys2Proof.Machine

namespace Sys2Proof.Proofs

open Sys2Proof.Machine

/-- Settles O32: `runSteps_duringRun` from the start of the events, where no engine step has been taken yet. -/
theorem hostAccessesDoNotDisturbARun : Obligations.HostAccessesDoNotDisturbARun := by
  intro s es hb hes hcount
  have h := runSteps_duringRun hb es hes (k := 0) (by simpa using hcount) rfl (SameRun.withEvents s es)
  rwa [Nat.zero_add] at h

/-- Settles O26: the engine's turn and the idle block by `step`'s cases, a run by `runSteps_engineSteps`. -/
theorem theMachineTakesTheEngineSteps : Obligations.TheMachineTakesTheEngineSteps := by
  refine ⟨fun s rest => step_of_engine, fun s he hb => ?idle, fun s k he hb hk => ?run⟩
  case idle => rw [step_of_no_events he, engineTurn_of_idle _ hb]
  case run => simpa [engineSteps] using runSteps_engineSteps he hb 0 k (by simpa using hk)

/-- Settles O31: `engineStep_of_stepOnce`, STEP being `stepOnce` on an idle block. -/
theorem stepCommandAgreesWithTheEngine : Obligations.StepCommandAgreesWithTheEngine :=
  fun s hb => ⟨_, exec_step_idle hb, engineStep_of_stepOnce _ s⟩

/-- Settles O24: RUN is `startRun` under the BUSY rule, `engineStep_at_end` ends a run that has nothing to read, and by
`exec_busy_sameRun` no instruction touches BUSY. -/
theorem runCommandStartsTheEngine : Obligations.RunCommandStartsTheEngine := by
  refine ⟨rfl, fun s => whenIdle_busy s, fun s => whenIdle_idle (op := startRun) s,
    fun b s t hb h hl hr => ?atEnd, fun i s t hb h => (exec_busy_sameRun hb h).busy.trans hb⟩
  case atEnd =>
    obtain rfl := eq_startRun_of_exec_run hb h
    rw [engineStep_at_end b (s := startRun s) hl hr]
    exact ⟨rfl, rfl, decodeBoth_frames b _, decodeBoth_out b _⟩

/-- Settles O47: each read is `returnWord` of a register that is 0, and the engine has no run. -/
theorem resetStateReadsZero : Obligations.ResetStateReadsZero := by
  refine ⟨fun i hi => ?reads, fun b => engineTurn_of_idle b rfl⟩
  case reads =>
    simp only [List.mem_cons, List.not_mem_nil, or_false] at hi
    rcases hi with rfl | rfl | rfl | rfl | rfl | rfl | rfl | rfl <;> rfl

/-- Settles O48: a pending supply is `supplyStreams`, in each of its branches. -/
theorem streamsAreSuppliedOnlyWhenIdle : Obligations.StreamsAreSuppliedOnlyWhenIdle := by
  intro s streams rest he
  rw [step_of_supply he, supplyStreams, State.withEvents_busy]
  refine ⟨fun hb => if_pos hb, fun hb hpast => ?pastEnd, fun hb hl hr => ?supplied⟩
  case pastEnd => rw [if_neg (by simp [hb]), if_neg (by omega)]
  case supplied => rw [if_neg (by simp [hb]), if_pos ⟨hl, hr⟩]; rfl

end Sys2Proof.Proofs

end
